-- ==== Sys2Proof/Config.lean ====
section
/-! DEFINITION. The parameters of the CM core (00_scope.md R8, R9). The spec leaves no value open
(93_implementation_defined.md), so there is no free value here. -/

namespace Sys2Proof

/-- `NUM_REGS`: cells in the Register File, indices 0 to 31 (R8). -/
def Config.numRegs : Nat := 32

/-- `MEM_CELLS`: cells in Memory, addresses 0 to 63 (R8). -/
def Config.memCells : Nat := 64

/-- `WORD_BYTES`: bytes in one instruction word (R8). -/
def Config.wordBytes : Nat := 6

/-- `PC_STEP`: bytes the program counter advances per executed word (R8, R136). -/
def Config.pcStep : Nat := 6

end Sys2Proof
end

