-- ==== Sys2Proof/Syntax.lean ====
section
/-! DEFINITION. The instructions: one constructor per row of spec/opcode_table.json (R2, R99).
The operand names B, C, D, E are the source's (00_scope.md section 5). -/

namespace Sys2Proof

/-- An instruction value. Operands are non-negative integers of any size, as the encoder and the
Assembler take them (R92, R98); the instruction rules check the indices themselves (R51, C7), so an
operand wider than its field has a meaning too (vector X1). Log 15. -/
inductive Instr where
  /-- Opcode 0, no operation (R170). -/
  | nop0
  /-- Opcode 1, no operation (R170). -/
  | nop1
  /-- Opcode 2, no operation (R170). -/
  | nop2
  /-- Opcode 3, no operation (R170). -/
  | nop3
  /-- Opcode 4, no operation (R170). -/
  | nop4
  /-- Opcode 5, no operation (R170). -/
  | nop5
  /-- Opcode 6, LoadConst (R150): `x[B] <- C`. -/
  | loadConst (b c : Nat)
  /-- Opcode 7, no operation (R170). -/
  | nop7
  /-- Opcode 8, no operation (R170). -/
  | nop8
  /-- Opcode 9, no operation (R170). -/
  | nop9
  /-- Opcode 10, ReadMem (R151): `x[B] <- m[C]`. -/
  | readMem (b c : Nat)
  /-- Opcode 11, no operation (R170). -/
  | nop11
  /-- Opcode 12, WriteMem (R160): `m[C+B] <- x[D]`. -/
  | writeMem (b c d : Nat)
  /-- Opcode 13, no operation (R170). -/
  | nop13
  /-- Opcode 14, ModMem (R161): `m[C+B] <- m[x[D]] % x[E]`. -/
  | modMem (b c d e : Nat)
  /-- Opcode 15, no operation (R170). -/
  | nop15
deriving DecidableEq, Repr

end Sys2Proof
end

