-- ==== Sys2Proof/WellFormed.lean ====
section
/-! DEFINITION. Well-formed instructions: every operand fits the mask width of its field
(30_encoding.md R82 to R86, the premise of R96). The decoder yields no other. -/

namespace Sys2Proof

/-- Every operand fits its field: B 5 and C 20 bits in format RC (R82); B 6, C 5, D 5 bits in format W
(R83); B 6, C 5, D 5, E 5 bits in format M (R84); format N has no operand (R85). -/
def Instr.wf : Instr → Bool
  | .loadConst b c => decide (b < 2 ^ 5) && decide (c < 2 ^ 20)
  | .readMem b c => decide (b < 2 ^ 5) && decide (c < 2 ^ 20)
  | .writeMem b c d => decide (b < 2 ^ 6) && decide (c < 2 ^ 5) && decide (d < 2 ^ 5)
  | .modMem b c d e =>
    decide (b < 2 ^ 6) && decide (c < 2 ^ 5) && decide (d < 2 ^ 5) && decide (e < 2 ^ 5)
  | .nop0 | .nop1 | .nop2 | .nop3 | .nop4 | .nop5 | .nop7 | .nop8 | .nop9 | .nop11 | .nop13
  | .nop15 => true

end Sys2Proof
end

