-- ==== Sys2Proof/Word.lean ====
section
/-! DEFINITION. The three widths of the machine: a program byte, an instruction word, a cell. -/

namespace Sys2Proof

/-- A byte of the program stream (00_scope.md section 4). -/
abbrev Byte := BitVec 8

/-- An instruction word: 48 bits, bit 0 least significant (R80). -/
abbrev Word := BitVec 48

/-- The value of one Register File or Memory cell: `CELL_W` = 20 bits, unsigned
(R23, decision D3; notes/assumptions/1.md, DESIGN CHOICE). -/
abbrev CellVal := BitVec 20

end Sys2Proof
end

