-- ==== Sys2Proof/Decode.lean ====
section
/-! DEFINITION. The Word Codec (30_encoding.md): the field layout, the decoder, the encoder of this
hardware (masked, R92), the source's reference encoder (R94), the byte order of a word (R54). -/

namespace Sys2Proof

/-! ### The layout (R81 to R87) -/

/-- One operand field: its offset from the least significant bit and its decode mask width (R86). -/
structure BitField where
  offset : Nat
  width : Nat
deriving DecidableEq, Repr

/-- The decode mask of a field: `0x1F` for 5 bits, `0x3F` for 6, `0xFFFFF` for 20. -/
def BitField.mask (f : BitField) : Nat := 2 ^ f.width - 1

/-- Reading a field, `(word >> offset) & mask` (R88, R89). -/
def BitField.get (f : BitField) (n : Nat) : Nat := (n >>> f.offset) &&& f.mask

/-- An operand placed by the encoder of this hardware: masked, then shifted (R92, decision D1). -/
def BitField.put (f : BitField) (v : Nat) : Nat := (v &&& f.mask) <<< f.offset

/-- An operand placed by the reference encoder: shifted, never masked (R94). -/
def BitField.putUnguarded (f : BitField) (v : Nat) : Nat := v <<< f.offset

/-- The opcode, `w[3:0]` (R81). -/
def opcodeField : BitField := ⟨0, 4⟩

/-- Format RC, `B` at bits 8:4 (R82). -/
def fieldRcB : BitField := ⟨4, 5⟩

/-- Format RC, `C` at bits 29:10 (R82). -/
def fieldRcC : BitField := ⟨10, 20⟩

/-- Format W, `B` at bits 9:4 (R83). -/
def fieldWB : BitField := ⟨4, 6⟩

/-- Format W, `C` at bits 15:11 (R83). -/
def fieldWC : BitField := ⟨11, 5⟩

/-- Format W, `D` at bits 21:17 (R83). -/
def fieldWD : BitField := ⟨17, 5⟩

/-- Format M, `B` at bits 9:4 (R84). -/
def fieldMB : BitField := ⟨4, 6⟩

/-- Format M, `C` at bits 15:11 (R84). -/
def fieldMC : BitField := ⟨11, 5⟩

/-- Format M, `D` at bits 21:17 (R84). -/
def fieldMD : BitField := ⟨17, 5⟩

/-- Format M, `E` at bits 27:23 (R84). -/
def fieldME : BitField := ⟨23, 5⟩

/-- The opcode number of an instruction (R99). -/
def Instr.opcode : Instr → Nat
  | .nop0 => 0
  | .nop1 => 1
  | .nop2 => 2
  | .nop3 => 3
  | .nop4 => 4
  | .nop5 => 5
  | .loadConst _ _ => 6
  | .nop7 => 7
  | .nop8 => 8
  | .nop9 => 9
  | .readMem _ _ => 10
  | .nop11 => 11
  | .writeMem _ _ _ => 12
  | .nop13 => 13
  | .modMem _ _ _ _ => 14
  | .nop15 => 15

/-! ### The decoder (R89, R90) -/

/-- The instruction of opcode `op` with the fields of the word value `n` (R89, R99). The last arm is opcode 15, the one
value of the 4-bit opcode that the others leave. -/
def decodeFields (op n : Nat) : Instr :=
  match op with
  | 0 => .nop0
  | 1 => .nop1
  | 2 => .nop2
  | 3 => .nop3
  | 4 => .nop4
  | 5 => .nop5
  | 6 => .loadConst (fieldRcB.get n) (fieldRcC.get n)
  | 7 => .nop7
  | 8 => .nop8
  | 9 => .nop9
  | 10 => .readMem (fieldRcB.get n) (fieldRcC.get n)
  | 11 => .nop11
  | 12 => .writeMem (fieldWB.get n) (fieldWC.get n) (fieldWD.get n)
  | 13 => .nop13
  | 14 => .modMem (fieldMB.get n) (fieldMC.get n) (fieldMD.get n) (fieldME.get n)
  | _ => .nop15

/-- `Decode(w)` (R89): total, every word has one result; slack and unused bits are not read (R90). -/
def decode (w : Word) : Instr := decodeFields (opcodeField.get w.toNat) w.toNat

/-! ### Bytes of a word (R54, R80) -/

/-- The word made of six bytes in stream order, little-endian (R54). -/
def wordOfBytes (b0 b1 b2 b3 b4 b5 : Byte) : Word :=
  BitVec.ofNat 48 (b0.toNat ||| b1.toNat <<< 8 ||| b2.toNat <<< 16 ||| b3.toNat <<< 24
    ||| b4.toNat <<< 32 ||| b5.toNat <<< 40)

/-- The six bytes of a word in stream order: byte `k` is `w[8k+7 : 8k]` (R54, R92). -/
def bytesOfWord (w : Word) : List Byte :=
  [w.extractLsb' 0 8, w.extractLsb' 8 8, w.extractLsb' 16 8, w.extractLsb' 24 8,
    w.extractLsb' 32 8, w.extractLsb' 40 8]

/-- Why bytes are no instruction. -/
inductive DecodeRefusal where
  /-- Fewer than six bytes are left: no word can be made of them (R80, R142). Raised by `takeWord`; safe,
  the decoder says nothing of such bytes. -/
  | truncated
deriving DecidableEq, Repr

/-- The first word of a byte stream and the bytes after it. -/
def takeWord : List Byte → Except DecodeRefusal (Word × List Byte)
  | b0 :: b1 :: b2 :: b3 :: b4 :: b5 :: rest => .ok (wordOfBytes b0 b1 b2 b3 b4 b5, rest)
  | _ => .error .truncated

/-- The decoder on bytes: total, and it rejects only a stream shorter than a word (R90). -/
def decodeBytes (bs : List Byte) : Except DecodeRefusal (Instr × List Byte) :=
  match takeWord bs with
  | .ok (w, rest) => .ok (decode w, rest)
  | .error e => .error e

/-! ### The encoder of this hardware (R92, R93, R97) -/

/-- The word value of `Encode(i)` (R92); none for a no-operation, which the encoder does not take
(R97, decision D13; log 14). -/
def encodeNat : Instr → Option Nat
  | .loadConst b c => some (6 ||| fieldRcB.put b ||| fieldRcC.put c)
  | .readMem b c => some (10 ||| fieldRcB.put b ||| fieldRcC.put c)
  | .writeMem b c d => some (12 ||| fieldWB.put b ||| fieldWC.put c ||| fieldWD.put d)
  | .modMem b c d e =>
    some (14 ||| fieldMB.put b ||| fieldMC.put c ||| fieldMD.put d ||| fieldME.put e)
  | .nop0 | .nop1 | .nop2 | .nop3 | .nop4 | .nop5 | .nop7 | .nop8 | .nop9 | .nop11 | .nop13
  | .nop15 => none

/-- `Encode(i)` (R92): `ENC_POLICY` = masked (R9, decision D1; log 13). -/
def encode (i : Instr) : Option Word := (encodeNat i).map (BitVec.ofNat 48)

/-- The six bytes of `Encode(i)` in stream order; no byte for an instruction the encoder does not take. -/
def encodeBytes (i : Instr) : List Byte :=
  match encode i with
  | some w => bytesOfWord w
  | none => []

/-- An instruction with every operand reduced to its mask width (R96, last sentence). -/
def Instr.reduced : Instr → Instr
  | .loadConst b c => .loadConst (b % 2 ^ 5) (c % 2 ^ 20)
  | .readMem b c => .readMem (b % 2 ^ 5) (c % 2 ^ 20)
  | .writeMem b c d => .writeMem (b % 2 ^ 6) (c % 2 ^ 5) (d % 2 ^ 5)
  | .modMem b c d e => .modMem (b % 2 ^ 6) (c % 2 ^ 5) (d % 2 ^ 5) (e % 2 ^ 5)
  | .nop0 => .nop0
  | .nop1 => .nop1
  | .nop2 => .nop2
  | .nop3 => .nop3
  | .nop4 => .nop4
  | .nop5 => .nop5
  | .nop7 => .nop7
  | .nop8 => .nop8
  | .nop9 => .nop9
  | .nop11 => .nop11
  | .nop13 => .nop13
  | .nop15 => .nop15

/-! ### The source's reference encoder (R94), not what this hardware does -/

/-- The value `EncodeUnguarded` builds (R94), before the question whether it fits a word. -/
def encodeUnguardedNat : Instr → Option Nat
  | .loadConst b c => some (6 ||| fieldRcB.putUnguarded b ||| fieldRcC.putUnguarded c)
  | .readMem b c => some (10 ||| fieldRcB.putUnguarded b ||| fieldRcC.putUnguarded c)
  | .writeMem b c d =>
    some (12 ||| fieldWB.putUnguarded b ||| fieldWC.putUnguarded c ||| fieldWD.putUnguarded d)
  | .modMem b c d e =>
    some (14 ||| fieldMB.putUnguarded b ||| fieldMC.putUnguarded c ||| fieldMD.putUnguarded d
      ||| fieldME.putUnguarded e)
  | .nop0 | .nop1 | .nop2 | .nop3 | .nop4 | .nop5 | .nop7 | .nop8 | .nop9 | .nop11 | .nop13
  | .nop15 => none

/-- `EncodeUnguarded(i)` (R94): none where the result reaches past bit 47, for which the spec defines
no word (U9, N8; log 13). -/
def encodeUnguarded (i : Instr) : Option Word :=
  match encodeUnguardedNat i with
  | some n => if n < 2 ^ 48 then some (BitVec.ofNat 48 n) else none
  | none => none

/-! ### The host's table words -/

/-- The instruction the decoder reads from a table word of `nbits` bits; every bit above is 0. -/
def decodeTableWord (nbits w : Nat) : Option Instr :=
  match decodeBytes (bytesOfWord (BitVec.ofNat 48 (w % 2 ^ nbits))) with
  | .ok (i, _) => some i
  | .error _ => none

end Sys2Proof
end

