-- ==== Sys2Proof/Machine/State.lean ====
section
/-! DEFINITION. The state of the Virtual Machine (10_state.md), plain data, and its reset value (R34). -/

namespace Sys2Proof.Machine

/-- The run state machine's states (R27, R130); the spec gives no binary encoding (decision D10). -/
inductive RunState where
  /-- Constructed, the host has not started the run. -/
  | ready
  /-- Consuming one word per step. -/
  | running
  /-- The stream is exhausted; the snapshot has been produced. -/
  | haltedNormal
  /-- A fatal fault ended the run; there is no snapshot. -/
  | haltedFault
deriving DecidableEq, Repr

/-- The three faults of the spec (R185). They are effects of an instruction or of the snapshot, recorded
in `reports`; they are not outcomes of a step (that is `Fault` below). -/
inductive Cause where
  /-- A register index is not in 0 to 31 (R186), non-fatal. -/
  | invalidRegisterIndex
  /-- A Memory address is not in 0 to 63 (R187), non-fatal. -/
  | invalidMemoryAddress
  /-- The divisor register of a ModMem holds 0 (R188), fatal. -/
  | divisionByZero
deriving DecidableEq, Repr

/-- Where a fault arose (R190). -/
inductive Origin where
  /-- An instruction, by the byte offset of its word. -/
  | word (p : Nat)
  /-- The snapshot, at an address. -/
  | snapshotAddress (a : Nat)
deriving DecidableEq, Repr

/-- One record of `reports` (R190, decision D8; log 6). -/
structure Report where
  cause : Cause
  origin : Origin
deriving DecidableEq, Repr

/-- Memory (R22): the cells that do not hold 0, as (address, cell) pairs with addresses strictly rising;
an unlisted address reads as 0 (log 2). -/
abbrev Memory := List (Nat × CellVal)

/-- The Execution Result's snapshot (R139, R177): (address, value) pairs. -/
abbrev Snapshot := List (Nat × CellVal)

/-- The state. `prog`, `first` and `last` are the inputs of the run (R29, R30) and `result` its output
(R139); they stand here because a step is a function of the state alone (log 3). -/
structure State where
  /-- Register File `x[0]` to `x[31]` (R20). -/
  regs : Vector CellVal 32
  /-- Memory `m[0]` to `m[63]` (R22). -/
  mem : Memory
  /-- Program counter: a byte offset into the stream (R25). -/
  pc : Nat
  /-- `run_state` (R27). -/
  runState : RunState
  /-- `reports`, oldest first (R28). -/
  reports : List Report
  /-- `Prog`, the byte stream of this run (R29). -/
  prog : List Byte
  /-- First address of the requested snapshot range (R30). -/
  first : Nat
  /-- Last address of the requested snapshot range, included (R30). -/
  last : Nat
  /-- The Execution Result: none until a run ends in `HaltedNormal` (R139, R175, R180). -/
  result : Option Snapshot
deriving DecidableEq, Repr

/-- Why the model stops with a fault. No fault of the spec is one: those are `Cause`. -/
inductive Fault where
  /-- Raised by `cycle` on a running state whose `pc` is not at the end of the stream and has fewer than
  six bytes after it. No run reaches such a state (R26, R132); safe: the model says nothing of it (log 8). -/
  | fetchOutsideProgram
deriving DecidableEq, Repr

/-- Why the model gives no meaning. -/
inductive Refusal where
  /-- An instruction without a meaning in this model; no arm of `exec` raises it; safe. -/
  | notModelled (mnemonic : String)
  /-- Raised by `State.start` on a byte stream whose length is no multiple of 6: it is not a program and the
  run does not start (R142, decision D5); safe (log 9). -/
  | programLengthNotMultipleOfSix
  /-- Raised by `State.start` on an engine that is not `Ready`: a new run needs a new reset (R141, R226,
  decision D16); safe (log 9). -/
  | startNotReady
deriving DecidableEq, Repr

/-- The state after reset, complete (R34, R220). `prog`, `first`, `last` and `result` hold nothing yet
(log 4). -/
def State.reset : State where
  regs := Vector.replicate 32 0
  mem := []
  pc := 0
  runState := .ready
  reports := []
  prog := []
  first := 0
  last := 0
  result := none

end Sys2Proof.Machine
end

