-- ==== Sys2Proof/Machine/Ops.lean ====
section
/-! DEFINITION. The named operations over registers, Memory and control state; taking a fault as one shared
operation (60_exceptions.md section 3). There is no return from a fault (R199): nothing is saved, so
nothing is restored. -/

namespace Sys2Proof.Machine

/-! ### Memory (R22, R66) -/

/-- What a cell that was never written reads as: 0 (R34). -/
def Memory.unlisted : CellVal := 0

/-- `MemRead(addr, 1)`: the cell at an address (00_scope.md section 4). -/
def Memory.read : Memory → Nat → CellVal
  | [], _ => Memory.unlisted
  | (k, v) :: rest, a => if k = a then v else Memory.read rest a

/-- `MemWrite(addr, 1, v)`, keeping the one canonical form: writing what an unlisted address reads as
removes the entry. -/
def Memory.write : Memory → Nat → CellVal → Memory
  | [], a, v => if v = Memory.unlisted then [] else [(a, v)]
  | (k, w) :: rest, a, v =>
    if a < k then if v = Memory.unlisted then (k, w) :: rest else (a, v) :: (k, w) :: rest
    else if a = k then if v = Memory.unlisted then rest else (a, v) :: rest
    else (k, w) :: Memory.write rest a v

/-- Every address listed is above `lo` and they rise strictly. -/
def Memory.risesAbove : Nat → Memory → Bool
  | _, [] => true
  | lo, (k, _) :: rest => decide (lo ≤ k) && Memory.risesAbove (k + 1) rest

/-- The canonical form: addresses strictly rising and below 64 (R22), no entry that equals what an
unlisted address reads as. -/
def Memory.wf (m : Memory) : Bool :=
  Memory.risesAbove 0 m &&
    m.all fun e => decide (e.1 < Config.memCells) && decide (e.2 ≠ Memory.unlisted)

/-! ### The Register File and Memory through the state -/

/-- Read `x[i]`. Every rule checks the index first (R51), so `i` is below 32 wherever a rule reads; the
value elsewhere is never used. -/
def State.readReg (s : State) (i : Nat) : CellVal := s.regs[i]?.getD 0

/-- `x[i] <- v`, after the index check (R51). -/
def State.writeReg (s : State) (i : Nat) (v : CellVal) : State :=
  { s with regs := s.regs.setIfInBounds i v }

/-- Read `m[a]`, after the address check (R52). -/
def State.readMem (s : State) (a : Nat) : CellVal := s.mem.read a

/-- `m[a] <- v`, after the address check (R52). -/
def State.writeMem (s : State) (a : Nat) (v : CellVal) : State :=
  { s with mem := s.mem.write a v }

/-! ### The program counter and faults -/

/-- "Program counter always advances by exactly 6 bytes" (R136), at the end of the word's execution
(R25). -/
def State.advance (s : State) : State := { s with pc := s.pc + Config.pcStep }

/-- The cause code this spec assigns (R189, decision D8). -/
def Cause.code : Cause → Nat
  | .invalidRegisterIndex => 1
  | .invalidMemoryAddress => 2
  | .divisionByZero => 3

/-- Only division by zero is fatal (R185, R188). -/
def Cause.fatal : Cause → Bool
  | .invalidRegisterIndex => false
  | .invalidMemoryAddress => false
  | .divisionByZero => true

/-- Append one record to `reports` (R28, R190). -/
def State.report (s : State) (r : Report) : State := { s with reports := s.reports ++ [r] }

/-- Taking a fault in the word at `s.pc` (R190, R191, R192): the report `(cause, Word(p))`, nothing written,
`pc` advanced; the fatal fault also halts the machine. Nothing is saved and control goes nowhere
else (R198). -/
def State.takeFault (s : State) (c : Cause) : State :=
  { s with
    reports := s.reports ++ [⟨c, .word s.pc⟩]
    runState := if c.fatal then .haltedFault else s.runState
    pc := s.pc + Config.pcStep }

end Sys2Proof.Machine
end

