-- ==== Sys2Proof/Machine/Operands.lean ====
section
/-! DEFINITION. The operand forms: a register index (R51), a direct Memory address (R52), the field sum
`C+B` (R163), a register-indirect address (R161), a 20-bit constant (R88). -/

namespace Sys2Proof.Machine

/-- A register index is valid when it is in 0 to 31 (R51); this is the check that fails, `i > 31`. -/
abbrev InvalidReg (i : Nat) : Prop := Config.numRegs ≤ i

/-- A Memory address is valid when it is in 0 to 63 (R52); this is the check that fails, `a > 63`. -/
abbrev InvalidAddr (a : Nat) : Prop := Config.memCells ≤ a

/-- The address `C+B` of WriteMem and ModMem: an exact sum, never wrapped (R160, R163). -/
def targetAddr (b c : Nat) : Nat := c + b

/-- The dividend's address of ModMem: the value in register `D` (R161, "Indirect addressing"). -/
def indirectAddr (s : State) (d : Nat) : Nat := (s.readReg d).toNat

/-- The constant of LoadConst as a cell value: the 20-bit field itself (R88, R150). A constant of more than
20 bits stands in no word; it is reduced as the encoder reduces it (log 15). -/
def constCell (c : Nat) : CellVal := BitVec.ofNat 20 c

end Sys2Proof.Machine
end

