-- ==== Sys2Proof/Machine/Snapshot.lean ====
section
/-! DEFINITION. The result snapshot (44_snapshot.md): the host's read-back of Memory after a normal end. -/

namespace Sys2Proof.Machine

/-- The loop of `Snapshot` over the `n` addresses from `a` on (R177): the pairs of the addresses in bounds and
one report for each other (R178, decision D14; log 16), both in increasing order. -/
def snapshotLoop (m : Memory) : Nat → Nat → Snapshot × List Report
  | _, 0 => ([], [])
  | a, n + 1 =>
    if InvalidAddr a then
      ((snapshotLoop m (a + 1) n).1,
        ⟨.invalidMemoryAddress, .snapshotAddress a⟩ :: (snapshotLoop m (a + 1) n).2)
    else ((a, m.read a) :: (snapshotLoop m (a + 1) n).1, (snapshotLoop m (a + 1) n).2)

/-- `Snapshot(first, last)` (R177): no iteration when `first > last` (R179). -/
def snapshot (m : Memory) (first last : Nat) : Snapshot × List Report :=
  snapshotLoop m first (last + 1 - first)

end Sys2Proof.Machine
end

