-- ==== Sys2Proof/Machine/Cycle.lean ====
section
/-! DEFINITION. The life of a run (40_execution_cycle.md): the host's start, fetch, the end of the stream, one call of the
run state machine. -/

namespace Sys2Proof.Machine

/-- What the host hands over at the start (R131, R224). -/
structure RunInput where
  prog : List Byte
  first : Nat
  last : Nat
deriving DecidableEq, Repr

/-- The host's start transaction (R130, R131, R226): once, in `Ready`, with a program of whole words (R142). -/
def State.start (s : State) (r : RunInput) : Host.Outcome State Fault Refusal :=
  if s.runState ≠ .ready then .refused .startNotReady
  else if r.prog.length % Config.wordBytes ≠ 0 then .refused .programLengthNotMultipleOfSix
  else .next { s with runState := .running, prog := r.prog, first := r.first, last := r.last }

/-- `FetchWord(pc)` (R132): the six bytes at `pc`, little-endian; none where six bytes are not there. -/
def fetchWord (prog : List Byte) (pc : Nat) : Option Word :=
  match takeWord (prog.drop pc) with
  | .ok (w, _) => some w
  | .error _ => none

/-- The normal end (R133, R175): `HaltedNormal`, and the snapshot is produced from Memory as it is; its
reports follow those of the run (R178). -/
def State.finish (s : State) : State :=
  { s with
    runState := .haltedNormal
    result := some (snapshot s.mem s.first s.last).1
    reports := s.reports ++ (snapshot s.mem s.first s.last).2 }

/-- One move of the run state machine (R130) over a given execution of decoded instructions. `Ready` waits for
the host's start (log 3); a halted machine executes nothing and stays (R141; log 7). -/
def cycle (run : Instr → State → Host.Outcome State Fault Refusal) (s : State) :
    Host.Outcome State Fault Refusal :=
  match s.runState with
  | .ready => .next s
  | .running =>
    if s.pc = s.prog.length then .next s.finish
    else
      match fetchWord s.prog s.pc with
      | some w => run (decode w) s
      | none => .fault .fetchOutsideProgram
  | .haltedNormal => .next s
  | .haltedFault => .next s

/-- The state in which the next word fetched is `w`: the word's bytes stand at `pc` in the stream (with zero
bytes before it where the stream is shorter) and the machine runs. It stands for the host's start
with such a program (R131; log 3). -/
def State.placeWord (s : State) (w : Word) : State :=
  { s with
    runState := .running
    prog := s.prog.take s.pc ++ List.replicate (s.pc - s.prog.length) 0 ++ bytesOfWord w
      ++ s.prog.drop (s.pc + Config.wordBytes) }

end Sys2Proof.Machine
end

