-- ==== Sys2Proof/Machine/Flags.lean ====
section
/-! DEFINITION. The machine has no flags, condition codes or predicates (R31), so no flag is computed. The one
data test of the instruction set is ModMem's zero test, whose outcome is stored nowhere (R31), and
the one computation is the remainder (R162). -/

namespace Sys2Proof.Machine

/-- ModMem's zero test on the divisor (R161). -/
def divisorIsZero (d : CellVal) : Bool := d == 0

/-- `a % d` for `d > 0`: the unsigned remainder (R162). -/
def remainder (a d : CellVal) : CellVal := BitVec.ofNat 20 (a.toNat % d.toNat)

end Sys2Proof.Machine
end

