-- ==== Sys2Proof/Machine/MemoryStores.lean ====
section
/-! DEFINITION. Instructions that write Memory: WriteMem (R160), ModMem (R161). -/

namespace Sys2Proof.Machine

/-- WriteMem (R160): the address check comes first (R193). -/
def execWriteMem (b c d : Nat) (s : State) : Host.Outcome State Fault Refusal :=
  if InvalidAddr (targetAddr b c) then .next (s.takeFault .invalidMemoryAddress)
  else if InvalidReg d then .next (s.takeFault .invalidRegisterIndex)
  else .next (s.writeMem (targetAddr b c) (s.readReg d)).advance

/-- ModMem (R161): target address, `D`, `E`, then the zero test, then the dividend's address (R193; the last
check is the spec's decision D4, log 10). All reads precede the write (R61). -/
def execModMem (b c d e : Nat) (s : State) : Host.Outcome State Fault Refusal :=
  if InvalidAddr (targetAddr b c) then .next (s.takeFault .invalidMemoryAddress)
  else if InvalidReg d then .next (s.takeFault .invalidRegisterIndex)
  else if InvalidReg e then .next (s.takeFault .invalidRegisterIndex)
  else if divisorIsZero (s.readReg e) then .next (s.takeFault .divisionByZero)
  else if InvalidAddr (indirectAddr s d) then .next (s.takeFault .invalidMemoryAddress)
  else .next (s.writeMem (targetAddr b c)
    (remainder (s.readMem (indirectAddr s d)) (s.readReg e))).advance

end Sys2Proof.Machine
end

