-- ==== Sys2Proof/Machine/NoOps.lean ====
section
/-! DEFINITION. The twelve no-operation opcodes (43_unrecognized.md R170, R171): nothing happens, no report is made,
`pc` advances. -/

namespace Sys2Proof.Machine

/-- `Unrecognized(op)`: nothing but the advance every word makes (R170, R136). -/
def noOperation (s : State) : Host.Outcome State Fault Refusal := .next s.advance

/-- Opcode 0, no operation (R170). -/
def execNop0 (s : State) : Host.Outcome State Fault Refusal := noOperation s

/-- Opcode 1, no operation (R170). -/
def execNop1 (s : State) : Host.Outcome State Fault Refusal := noOperation s

/-- Opcode 2, no operation (R170). -/
def execNop2 (s : State) : Host.Outcome State Fault Refusal := noOperation s

/-- Opcode 3, no operation (R170). -/
def execNop3 (s : State) : Host.Outcome State Fault Refusal := noOperation s

/-- Opcode 4, no operation (R170). -/
def execNop4 (s : State) : Host.Outcome State Fault Refusal := noOperation s

/-- Opcode 5, no operation (R170). -/
def execNop5 (s : State) : Host.Outcome State Fault Refusal := noOperation s

/-- Opcode 7, no operation (R170). -/
def execNop7 (s : State) : Host.Outcome State Fault Refusal := noOperation s

/-- Opcode 8, no operation (R170). -/
def execNop8 (s : State) : Host.Outcome State Fault Refusal := noOperation s

/-- Opcode 9, no operation (R170). -/
def execNop9 (s : State) : Host.Outcome State Fault Refusal := noOperation s

/-- Opcode 11, no operation (R170). -/
def execNop11 (s : State) : Host.Outcome State Fault Refusal := noOperation s

/-- Opcode 13, no operation (R170). -/
def execNop13 (s : State) : Host.Outcome State Fault Refusal := noOperation s

/-- Opcode 15, no operation (R170). -/
def execNop15 (s : State) : Host.Outcome State Fault Refusal := noOperation s

end Sys2Proof.Machine
end

