-- ==== Sys2Proof/Machine/RegisterLoads.lean ====
section
/-! DEFINITION. Instructions that write a register: LoadConst (R150), ReadMem (R151). -/

namespace Sys2Proof.Machine

/-- LoadConst (R150). -/
def execLoadConst (b c : Nat) (s : State) : Host.Outcome State Fault Refusal :=
  if InvalidReg b then .next (s.takeFault .invalidRegisterIndex)
  else .next (s.writeReg b (constCell c)).advance

/-- ReadMem (R151): the register check comes first (R193). -/
def execReadMem (b c : Nat) (s : State) : Host.Outcome State Fault Refusal :=
  if InvalidReg b then .next (s.takeFault .invalidRegisterIndex)
  else if InvalidAddr c then .next (s.takeFault .invalidMemoryAddress)
  else .next (s.writeReg b (s.readMem c)).advance

end Sys2Proof.Machine
end

