-- ==== Sys2Proof/Machine/Dispatch.lean ====
section
/-! DEFINITION. Dispatch on the decoded instruction alone (R135): one arm per constructor, each a meaning of its own. -/

namespace Sys2Proof.Machine

/-- The execution of the word at `s.pc`, decoded as `i` (R134). -/
def exec (i : Instr) (s : State) : Host.Outcome State Fault Refusal :=
  match i with
  | .nop0 => Sys2Proof.Machine.execNop0 s
  | .nop1 => Sys2Proof.Machine.execNop1 s
  | .nop2 => Sys2Proof.Machine.execNop2 s
  | .nop3 => Sys2Proof.Machine.execNop3 s
  | .nop4 => Sys2Proof.Machine.execNop4 s
  | .nop5 => Sys2Proof.Machine.execNop5 s
  | .loadConst b c => Sys2Proof.Machine.execLoadConst b c s
  | .nop7 => Sys2Proof.Machine.execNop7 s
  | .nop8 => Sys2Proof.Machine.execNop8 s
  | .nop9 => Sys2Proof.Machine.execNop9 s
  | .readMem b c => Sys2Proof.Machine.execReadMem b c s
  | .nop11 => Sys2Proof.Machine.execNop11 s
  | .writeMem b c d => Sys2Proof.Machine.execWriteMem b c d s
  | .nop13 => Sys2Proof.Machine.execNop13 s
  | .modMem b c d e => Sys2Proof.Machine.execModMem b c d e s
  | .nop15 => Sys2Proof.Machine.execNop15 s

end Sys2Proof.Machine
end

