-- ==== Sys2Proof/Machine/Step.lean ====
section
/-! DEFINITION. One step of the machine, and the placing of a word where it fetches next. -/

namespace Sys2Proof.Machine

/-- One move of the machine (R130, R134). -/
def step (s : State) : Host.Outcome State Fault Refusal := cycle exec s

/-- `s` with the table word `w` of `nbits` bits (zero above) where `step` fetches its next instruction, and
the machine running, so that the very next step runs it (log 3). -/
def State.withFetchWord (s : State) (nbits w : Nat) : State :=
  s.placeWord (BitVec.ofNat 48 (w % 2 ^ nbits))

end Sys2Proof.Machine
end

