-- ==== Sys2Proof/Machine/Assembler.lean ====
section
/-! DEFINITION. The Assembler (30_encoding.md section 7): a pure function from instruction records to a byte stream, with
its two errors and its optional two-field trace. -/

namespace Sys2Proof.Machine

/-- An instruction record `(mnemonic, arg0, arg1, ...)` (R101); arguments are non-negative (R98). -/
structure SourceRecord where
  mnemonic : String
  args : List Nat
deriving DecidableEq, Repr

/-- The Assembler's two errors (R104). They are not faults of the machine (R204). -/
inductive AsmError where
  /-- The mnemonic is not one of the four. -/
  | unknownMnemonic
  /-- The number of arguments is not the mnemonic's arity. -/
  | wrongArity
deriving DecidableEq, Repr

/-- One trace record (R106): the opcode number and the first two arguments as given (R107). -/
structure TraceRecord where
  opcode : Nat
  arg0 : Nat
  arg1 : Nat
deriving DecidableEq, Repr

/-- What a successful call gives. -/
structure Assembly where
  bytes : List Byte
  trace : List TraceRecord
deriving DecidableEq, Repr

/-- The instruction a record names: mnemonics, arities and argument order of R101 (`read_mem` is the spec's
spelling, decision D11; log 17). -/
def instrOfRecord (r : SourceRecord) : Except AsmError Instr :=
  if r.mnemonic = "load_const" then
    match r.args with
    | [b, c] => .ok (.loadConst b c)
    | _ => .error .wrongArity
  else if r.mnemonic = "read_mem" then
    match r.args with
    | [b, c] => .ok (.readMem b c)
    | _ => .error .wrongArity
  else if r.mnemonic = "write_mem" then
    match r.args with
    | [b, c, d] => .ok (.writeMem b c d)
    | _ => .error .wrongArity
  else if r.mnemonic = "mod_mem" then
    match r.args with
    | [b, c, d, e] => .ok (.modMem b c d e)
    | _ => .error .wrongArity
  else .error .unknownMnemonic

/-- All the records of a list checked before anything is produced (R102, R105): the instructions, or the error
of the first malformed record (log 17). -/
def instrsOfRecords : List SourceRecord → Except AsmError (List Instr)
  | [] => .ok []
  | r :: rs =>
    match instrOfRecord r with
    | .error e => .error e
    | .ok i =>
      match instrsOfRecords rs with
      | .error e => .error e
      | .ok is => .ok (i :: is)

/-- The trace record of an instruction: only the first two arguments, never more (R106). -/
def traceOf : Instr → List TraceRecord
  | .loadConst b c => [⟨6, b, c⟩]
  | .readMem b c => [⟨10, b, c⟩]
  | .writeMem b c _ => [⟨12, b, c⟩]
  | .modMem b c _ _ => [⟨14, b, c⟩]
  | .nop0 | .nop1 | .nop2 | .nop3 | .nop4 | .nop5 | .nop7 | .nop8 | .nop9 | .nop11 | .nop13
  | .nop15 => []

/-- `Assemble(list)` (R102): the concatenation of the encoded words in input order, or an error with no bytes
and no trace (R104, R105). The trace is emitted when an observer is present (R106). -/
def assemble (observer : Bool) (rs : List SourceRecord) : Except AsmError Assembly :=
  match instrsOfRecords rs with
  | .error e => .error e
  | .ok is => .ok ⟨is.flatMap encodeBytes, if observer then is.flatMap traceOf else []⟩

end Sys2Proof.Machine
end

