-- ==== Sys2Proof/Machine/Run.lean ====
section
/-! DEFINITION. A whole run as one function of its inputs (40_execution_cycle.md R138). -/

namespace Sys2Proof.Machine

/-- `n` steps, stopping at the first fault or refusal. -/
def stepN : Nat → State → Host.Outcome State Fault Refusal
  | 0, s => .next s
  | n + 1, s =>
    match step s with
    | .next t => stepN n t
    | .fault f => .fault f
    | .refused r => .refused r

/-- What a run delivers (R138, R139): the reports, and the snapshot or nothing. -/
structure Delivery where
  reports : List Report
  result : Option Snapshot
deriving DecidableEq, Repr

/-- `Run(Prog, first, last)` (R138): reset, start, one step per word and one for the normal end (R230). A
machine that has halted earlier stays as it is. -/
def runProgram (r : RunInput) : Host.Outcome Delivery Fault Refusal :=
  match State.reset.start r with
  | .next s =>
    match stepN (r.prog.length / Config.wordBytes + 1) s with
    | .next t => .next ⟨t.reports, t.result⟩
    | .fault f => .fault f
    | .refused x => .refused x
  | .fault f => .fault f
  | .refused x => .refused x

end Sys2Proof.Machine
end

