-- ==== Sys2Proof/Safety.lean ====
section
/-! DEFINITION. The terms the statements use: what an instruction leaves alone, what a skipped instruction is, what each
instruction reads and writes, the invariants of a run. -/

namespace Sys2Proof

/-- The four instructions the encoder and the Assembler know (R2, R97). -/
def Instr.isCore : Instr → Bool
  | .loadConst _ _ => true
  | .readMem _ _ => true
  | .writeMem _ _ _ => true
  | .modMem _ _ _ _ => true
  | .nop0 | .nop1 | .nop2 | .nop3 | .nop4 | .nop5 | .nop7 | .nop8 | .nop9 | .nop11 | .nop13
  | .nop15 => false

/-- The bits of a word the decoder reads, by opcode: the opcode and the masked fields of the format's table
(R82 to R85); every other bit is slack or unused. -/
def decodedBits : Nat → Nat
  | 6 => 0x3FFFFDFF
  | 10 => 0x3FFFFDFF
  | 12 => 0x3EFBFF
  | 14 => 0xFBEFBFF
  | _ => 0xF

/-- The registers an instruction reads (R21). -/
def Instr.regsRead : Instr → List Nat
  | .writeMem _ _ d => [d]
  | .modMem _ _ d e => [d, e]
  | .loadConst _ _ | .readMem _ _ | .nop0 | .nop1 | .nop2 | .nop3 | .nop4 | .nop5 | .nop7 | .nop8
  | .nop9 | .nop11 | .nop13 | .nop15 => []

/-- The registers an instruction writes (R21). -/
def Instr.regsWritten : Instr → List Nat
  | .loadConst b _ => [b]
  | .readMem b _ => [b]
  | .writeMem _ _ _ | .modMem _ _ _ _ | .nop0 | .nop1 | .nop2 | .nop3 | .nop4 | .nop5 | .nop7
  | .nop8 | .nop9 | .nop11 | .nop13 | .nop15 => []

/-- The Memory cells an instruction reads in a state (R58). -/
def Instr.cellsRead (s : Machine.State) : Instr → List Nat
  | .readMem _ c => [c]
  | .modMem _ _ d _ => [Machine.indirectAddr s d]
  | .loadConst _ _ | .writeMem _ _ _ | .nop0 | .nop1 | .nop2 | .nop3 | .nop4 | .nop5 | .nop7
  | .nop8 | .nop9 | .nop11 | .nop13 | .nop15 => []

/-- The Memory cells an instruction writes (R58). -/
def Instr.cellsWritten : Instr → List Nat
  | .writeMem b c _ => [Machine.targetAddr b c]
  | .modMem b c _ _ => [Machine.targetAddr b c]
  | .loadConst _ _ | .readMem _ _ | .nop0 | .nop1 | .nop2 | .nop3 | .nop4 | .nop5 | .nop7
  | .nop8 | .nop9 | .nop11 | .nop13 | .nop15 => []

end Sys2Proof

namespace Sys2Proof.Machine

/-! ### Frames -/

/-- Every register reads as before. -/
def SameRegs (s t : State) : Prop := ∀ r, t.readReg r = s.readReg r

/-- Every register but `r` reads as before. -/
def SameRegsBut (r : Nat) (s t : State) : Prop := ∀ q, q ≠ r → t.readReg q = s.readReg q

/-- Every Memory cell reads as before. -/
def SameMem (s t : State) : Prop := ∀ a, t.readMem a = s.readMem a

/-- Every Memory cell but `a` reads as before. -/
def SameMemBut (a : Nat) (s t : State) : Prop := ∀ x, x ≠ a → t.readMem x = s.readMem x

/-- The inputs of the run and its Execution Result are as before. -/
def SameInputs (s t : State) : Prop :=
  t.prog = s.prog ∧ t.first = s.first ∧ t.last = s.last ∧ t.result = s.result

/-- What every word that reports nothing leaves alone besides registers and Memory, and the advance it makes
(R136): the run state, the reports, the inputs and the result stay. -/
def Quiet (s t : State) : Prop :=
  t.pc = s.pc + 6 ∧ t.runState = s.runState ∧ t.reports = s.reports ∧ SameInputs s t

/-- A word skipped with a fault (R190, R191): one report at the word's offset, no other effect, `pc`
advanced. The record's content is the spec's decision D8 (log 6). -/
def Skipped (c : Cause) (s t : State) : Prop :=
  t.reports = s.reports ++ [⟨c, .word s.pc⟩] ∧ SameRegs s t ∧ SameMem s t ∧
    t.pc = s.pc + 6 ∧ t.runState = s.runState ∧ SameInputs s t

/-- A word that ends the run with a fault (R192): as a skipped one, but the machine is in `HaltedFault`. The
advance past the fatal word is the spec's decision D7 (log 5), the record's content its decision D8 (log 6). -/
def HaltedBy (c : Cause) (s t : State) : Prop :=
  t.reports = s.reports ++ [⟨c, .word s.pc⟩] ∧ SameRegs s t ∧ SameMem s t ∧
    t.pc = s.pc + 6 ∧ t.runState = .haltedFault ∧ SameInputs s t

/-! ### Invariants of a run -/

/-- Some report is the fatal one. -/
def State.fatalReported (s : State) : Prop := ∃ r ∈ s.reports, r.cause = .divisionByZero

/-- What holds of every state of every run. -/
structure State.Inv (s : State) : Prop where
  /-- Memory is in canonical form and lists addresses below 64 only (R22). -/
  memWf : s.mem.wf = true
  /-- The stream is whole words (R142). -/
  wholeWords : s.prog.length % 6 = 0
  /-- "It is always a multiple of 6" (R25). -/
  pcAligned : s.pc % 6 = 0
  /-- `pc` never passes the end of the stream (R26). -/
  pcInside : s.pc ≤ s.prog.length
  /-- Before the start nothing differs from reset (R35). -/
  readyFresh : s.runState = .ready →
    s.regs = State.reset.regs ∧ s.mem = State.reset.mem ∧ s.pc = 0 ∧ s.reports = []
  /-- A normal end is at the end of the stream (R26, R133). -/
  endsAtEnd : s.runState = .haltedNormal → s.pc = s.prog.length
  /-- There is an Execution Result exactly in `HaltedNormal` (R175, R180). -/
  resultIffNormal : s.result.isSome ↔ s.runState = .haltedNormal
  /-- The run has ended in `HaltedFault` exactly when a division by zero was reported (R188, R192). -/
  haltedIffFatal : s.fatalReported ↔ s.runState = .haltedFault

/-- The order of two reports of one run: instruction reports by offset, then snapshot reports by address. -/
def Report.before (r q : Report) : Prop :=
  match r.origin, q.origin with
  | .word p, .word p' => p < p'
  | .word _, .snapshotAddress _ => True
  | .snapshotAddress _, .word _ => False
  | .snapshotAddress a, .snapshotAddress a' => a < a'

/-- Every report stands in the order of the run (R178, R199), names a word already executed (R190) or an address
above 63 of a snapshot that has been made (R177), and only the snapshot's reports name an address. -/
def State.reportsInOrder (s : State) : Prop :=
  s.reports.Pairwise Report.before ∧
    ∀ r ∈ s.reports,
      match r.origin with
      | .word p => p % 6 = 0 ∧ p < s.pc
      | .snapshotAddress a =>
        r.cause = .invalidMemoryAddress ∧ 63 < a ∧ s.first ≤ a ∧ a ≤ s.last ∧
          s.runState = .haltedNormal

/-! ### The Assembler -/

/-- The table of R101: which record names which instruction. -/
def RecordNames (r : SourceRecord) (i : Instr) : Prop :=
  (∃ b c, r = ⟨"load_const", [b, c]⟩ ∧ i = .loadConst b c) ∨
  (∃ b c, r = ⟨"read_mem", [b, c]⟩ ∧ i = .readMem b c) ∨
  (∃ b c d, r = ⟨"write_mem", [b, c, d]⟩ ∧ i = .writeMem b c d) ∨
  (∃ b c d e, r = ⟨"mod_mem", [b, c, d, e]⟩ ∧ i = .modMem b c d e)

/-- The four mnemonics (R101). -/
def knownMnemonics : List String := ["load_const", "read_mem", "write_mem", "mod_mem"]

end Sys2Proof.Machine
end

