-- ==== Sys2Proof/Certificates/Slice0/Obligations.lean ====
section
/-! DEFINITION. The statements about the CM core. Each docstring names the rule or section of spec/ it formalises. Where
a clause rests on a decision of the spec (D<n>) or of this model (log <n>) the docstring says so. -/

open Sys2Proof Sys2Proof.Machine

/-! ### The Word Codec -/

/-- R89: the decoder reads the opcode from `w & 0xF` and each field as `(w >> offset) & mask`; any other opcode is the
no-operation of that opcode. -/
def Obligations.DecodeReadsOpcodeAndMaskedFields : Prop :=
  (∀ w : Word, w.toNat &&& 0xF = 6 →
    decode w = .loadConst ((w.toNat >>> 4) &&& 0x1F) ((w.toNat >>> 10) &&& 0xFFFFF)) ∧
  (∀ w : Word, w.toNat &&& 0xF = 10 →
    decode w = .readMem ((w.toNat >>> 4) &&& 0x1F) ((w.toNat >>> 10) &&& 0xFFFFF)) ∧
  (∀ w : Word, w.toNat &&& 0xF = 12 →
    decode w = .writeMem ((w.toNat >>> 4) &&& 0x3F) ((w.toNat >>> 11) &&& 0x1F)
      ((w.toNat >>> 17) &&& 0x1F)) ∧
  (∀ w : Word, w.toNat &&& 0xF = 14 →
    decode w = .modMem ((w.toNat >>> 4) &&& 0x3F) ((w.toNat >>> 11) &&& 0x1F)
      ((w.toNat >>> 17) &&& 0x1F) ((w.toNat >>> 23) &&& 0x1F)) ∧
  (∀ w : Word, w.toNat &&& 0xF ∉ [6, 10, 12, 14] →
    (decode w).isCore = false ∧ (decode w).opcode = w.toNat &&& 0xF) ∧
  decode 0x0000000C8C06 = .loadConst 0 803

/-- 95_test_vectors.md section 2.2: a word of each format, written out, decodes to its instruction (vectors K1, K2, K14, K15,
K16, K17, K18). -/
def Obligations.ArbitraryWordsDecodeAsListed : Prop :=
  decode 0x000000000000 = .nop0 ∧ decode 0xFFFFFFFFFFFF = .nop15 ∧
  decode 0x123456789ABC = .writeMem 43 19 28 ∧ decode 0xDEADBEEFCAFE = .modMem 47 25 23 29 ∧
  decode 0x0000000C8C07 = .nop7 ∧ decode 0xA5A5A5A5A5A6 = .loadConst 26 616809 ∧
  decode 0x5A5A5A5A5A5A = .readMem 5 431766

/-- 30_encoding.md R90: two words that agree on the opcode and the masked fields decode to the same instruction, whatever
their slack and unused bits. -/
def Obligations.IgnoredBitsNeverReachTheDecoder : Prop :=
  ∀ w v : Word, w.toNat &&& decodedBits (w.toNat &&& 0xF) = v.toNat &&& decodedBits (w.toNat &&& 0xF) →
    decode w = decode v

/-- 30_encoding.md R90, 60_exceptions.md R194: every word decodes, its fields fit their masks, and the instruction's opcode
is the word's low nibble. -/
def Obligations.EveryWordDecodesWellFormed : Prop :=
  ∀ w : Word, (decode w).wf = true ∧ (decode w).opcode = w.toNat % 16

/-- R96: for operands that fit, decoding undoes both encoders; for any operands at all, decoding the encoder's word gives the
operands reduced to their mask widths. -/
def Obligations.DecodeUndoesEncode : Prop :=
  ∀ i : Instr, i.isCore = true →
    (∃ w, encode i = some w ∧ decode w = i.reduced) ∧
    (i.wf = true → ∃ w, encode i = some w ∧ decode w = i) ∧
    (i.wf = true → ∃ w, encodeUnguarded i = some w ∧ decode w = i)

/-- 30_encoding.md R92, R93, R97 (decisions D1, D13; log 13, log 14): the encoder takes the four instructions and no other,
ORs the opcode and the masked operands into place, and sets no slack or unused bit. -/
def Obligations.EncoderSetsOnlyOpcodeAndMaskedFields : Prop :=
  (∀ b c, encode (.loadConst b c) =
    some (BitVec.ofNat 48 (6 ||| (b &&& 0x1F) <<< 4 ||| (c &&& 0xFFFFF) <<< 10))) ∧
  (∀ b c, encode (.readMem b c) =
    some (BitVec.ofNat 48 (10 ||| (b &&& 0x1F) <<< 4 ||| (c &&& 0xFFFFF) <<< 10))) ∧
  (∀ b c d, encode (.writeMem b c d) = some (BitVec.ofNat 48
    (12 ||| (b &&& 0x3F) <<< 4 ||| (c &&& 0x1F) <<< 11 ||| (d &&& 0x1F) <<< 17))) ∧
  (∀ b c d e, encode (.modMem b c d e) = some (BitVec.ofNat 48
    (14 ||| (b &&& 0x3F) <<< 4 ||| (c &&& 0x1F) <<< 11 ||| (d &&& 0x1F) <<< 17
      ||| (e &&& 0x1F) <<< 23))) ∧
  (∀ i, i.isCore = false → encode i = none) ∧
  (∀ i w, encode i = some w → w.toNat &&& decodedBits i.opcode = w.toNat)

/-- 30_encoding.md R91: encoding a decoded word gives the word with its ignored bits cleared, so it gives the word back
exactly when those bits are 0. -/
def Obligations.EncodeAfterDecodeClearsIgnoredBits : Prop :=
  ∀ w : Word, (decode w).isCore = true →
    encode (decode w) = some (BitVec.ofNat 48 (w.toNat &&& decodedBits (w.toNat &&& 0xF))) ∧
    (encode (decode w) = some w ↔ w.toNat &&& decodedBits (w.toNat &&& 0xF) = w.toNat)

/-- 30_encoding.md R95: what the source's unguarded encoder does with an operand that is too wide, as the decoder sees it.
The bit just above the mask is lost; the bits above that are ORed into the next field. -/
def Obligations.UnguardedOperandsOverflowUpward : Prop :=
  (∀ b c w, encodeUnguarded (.loadConst b c) = some w →
    decode w = .loadConst (b % 2 ^ 5) ((c ||| b >>> 6) % 2 ^ 20)) ∧
  (∀ b c w, encodeUnguarded (.readMem b c) = some w →
    decode w = .readMem (b % 2 ^ 5) ((c ||| b >>> 6) % 2 ^ 20)) ∧
  (∀ b c d w, encodeUnguarded (.writeMem b c d) = some w →
    decode w = .writeMem (b % 2 ^ 6) ((c ||| b >>> 7) % 2 ^ 5) ((d ||| c >>> 6 ||| b >>> 13) % 2 ^ 5)) ∧
  (∀ b c d e w, encodeUnguarded (.modMem b c d e) = some w →
    decode w = .modMem (b % 2 ^ 6) ((c ||| b >>> 7) % 2 ^ 5) ((d ||| c >>> 6 ||| b >>> 13) % 2 ^ 5)
      ((e ||| d >>> 6 ||| c >>> 12 ||| b >>> 19) % 2 ^ 5))

/-- R54: the word at byte offset `p` is made of the six bytes in little-endian order, byte `k` is bits `8k+7` to `8k`, the
opcode is the low nibble of the first byte, and the encoder writes the same order. -/
def Obligations.WordsAreLittleEndian : Prop :=
  (∀ (prog : List Byte) (p : Nat) (h : p + 6 ≤ prog.length), ∃ w, fetchWord prog p = some w ∧
    w.toNat = prog[p].toNat ||| prog[p + 1].toNat <<< 8 ||| prog[p + 2].toNat <<< 16
      ||| prog[p + 3].toNat <<< 24 ||| prog[p + 4].toNat <<< 32 ||| prog[p + 5].toNat <<< 40 ∧
    (∀ (k : Nat) (hk : k < 6), prog[p + k].toNat = (w.toNat >>> (8 * k)) &&& 0xFF) ∧
    w.toNat &&& 0xF = prog[p].toNat &&& 0xF) ∧
  (∀ (i : Instr) (w : Word) (rest : List Byte), encode i = some w →
    takeWord (encodeBytes i ++ rest) = .ok (w, rest))

/-! ### Reset, start, the step -/

/-- 10_state.md section 6, 70_reset_and_hazards.md section 1: registers and Memory are zero and the machine is Ready.
`pc` = 0 is the spec's decision D6 (log 5) and the empty `reports` its decision D8 (log 6); that no result is there is this
model's (log 4). -/
def Obligations.ResetLeavesZeroedReadyMachine : Prop :=
  (∀ r, State.reset.readReg r = 0) ∧ (∀ a, State.reset.readMem a = 0) ∧
  State.reset.runState = .ready ∧ State.reset.pc = 0 ∧ State.reset.reports = [] ∧
  State.reset.result = none

/-- 40_execution_cycle.md R130, R131, R142 (decisions D5, D16; log 3, log 9): the host starts a Ready machine with a program
of whole words, which changes nothing but the run state and the inputs; any other stream and any other run state is refused. -/
def Obligations.StartHandsOverTheProgram : Prop :=
  (∀ (s : State) (r : RunInput), s.runState = .ready → r.prog.length % 6 = 0 →
    ∃ t, s.start r = .next t ∧ t.runState = .running ∧ t.prog = r.prog ∧ t.first = r.first ∧
      t.last = r.last ∧ SameRegs s t ∧ SameMem s t ∧ t.pc = s.pc ∧ t.reports = s.reports ∧
      t.result = s.result) ∧
  (∀ (s : State) (r : RunInput), s.runState = .ready → r.prog.length % 6 ≠ 0 →
    s.start r = .refused .programLengthNotMultipleOfSix) ∧
  (∀ (s : State) (r : RunInput), s.runState ≠ .ready → s.start r = .refused .startNotReady)

/-- 40_execution_cycle.md R132, R134, R135: a running machine that is not at the end of the stream and has a whole word there
fetches it, and the step is the execution of what that word decodes to; nothing is added around it (`pc` is advanced inside
`exec`, log 5). -/
def Obligations.StepRunsTheDecodedWord : Prop :=
  ∀ s : State, s.runState = .running → s.pc + 6 ≤ s.prog.length →
    ∃ w, fetchWord s.prog s.pc = some w ∧ step s = exec (decode w) s

/-- The model's own placing of a word (log 3): the very next step of `s.withFetchWord` runs the instruction the decoder reads
from the word. -/
def Obligations.PlacedWordIsRunNext : Prop :=
  ∀ (s : State) (nbits w : Nat) (i : Instr), decodeTableWord nbits w = some i →
    step (s.withFetchWord nbits w) = exec i (s.withFetchWord nbits w) ∧
    SameRegs s (s.withFetchWord nbits w) ∧ SameMem s (s.withFetchWord nbits w) ∧
    (s.withFetchWord nbits w).pc = s.pc ∧ (s.withFetchWord nbits w).reports = s.reports

/-- 40_execution_cycle.md R136 (the advance after the fatal fault is the spec's decision D7; log 5): in every state every
instruction answers a next state, with `pc` advanced by exactly 6 on every branch. -/
def Obligations.EveryBranchAdvancesPcBySix : Prop :=
  ∀ (i : Instr) (s : State), ∃ t, exec i s = .next t ∧ t.pc = s.pc + 6 ∧ SameInputs s t

/-- R133: at the end of the stream a running machine goes to HaltedNormal without consuming a word; this is the only normal
end; the empty program ends so at once, with every cell still 0. -/
def Obligations.ExhaustedStreamEndsTheRunNormally : Prop :=
  (∀ s : State, s.runState = .running → s.pc = s.prog.length →
    ∃ t, step s = .next t ∧ t.runState = .haltedNormal ∧ t.pc = s.pc ∧ SameRegs s t ∧
      SameMem s t) ∧
  (∀ s t : State, step s = .next t → s.runState ≠ .haltedNormal → t.runState = .haltedNormal →
    s.runState = .running ∧ s.pc = s.prog.length) ∧
  (∀ (first last : Nat), ∃ s t, State.reset.start ⟨[], first, last⟩ = .next s ∧
    step s = .next t ∧ t.runState = .haltedNormal ∧ (∀ r, t.readReg r = 0) ∧
    (∀ a, t.readMem a = 0))

/-- 40_execution_cycle.md R141 (decision D16; log 7): any number of steps of a halted machine leaves it as it is. That a
machine in Ready waits in the same way is this model's reading of R131 (log 3). -/
def Obligations.HaltedMachineStaysHalted : Prop :=
  ∀ (n : Nat) (s : State), s.runState ≠ .running → stepN n s = .next s

/-! ### The instructions -/

/-- R150: LoadConst, its encoding, its effect, its frame and its fault. -/
def Obligations.LoadConstWritesTheConstant : Prop :=
  (∀ w : Word, w.toNat &&& 0xF = 6 →
    decode w = .loadConst ((w.toNat >>> 4) &&& 0x1F) ((w.toNat >>> 10) &&& 0xFFFFF)) ∧
  (∀ b c, b < 2 ^ 5 → c < 2 ^ 20 →
    encode (.loadConst b c) = some (BitVec.ofNat 48 (6 ||| b <<< 4 ||| c <<< 10))) ∧
  (∀ (s : State) (b c : Nat), b < 32 → c < 2 ^ 20 →
    ∃ t, exec (.loadConst b c) s = .next t ∧ (t.readReg b).toNat = c ∧ SameRegsBut b s t ∧
      SameMem s t ∧ Quiet s t) ∧
  (∀ (s : State) (b c : Nat), 32 ≤ b →
    ∃ t, exec (.loadConst b c) s = .next t ∧ Skipped .invalidRegisterIndex s t)

/-- R151: ReadMem, its encoding, its effect, its frame and its two faults, the register check first. -/
def Obligations.ReadMemCopiesTheCell : Prop :=
  (∀ w : Word, w.toNat &&& 0xF = 10 →
    decode w = .readMem ((w.toNat >>> 4) &&& 0x1F) ((w.toNat >>> 10) &&& 0xFFFFF)) ∧
  (∀ b c, b < 2 ^ 5 → c < 2 ^ 20 →
    encode (.readMem b c) = some (BitVec.ofNat 48 (10 ||| b <<< 4 ||| c <<< 10))) ∧
  (∀ (s : State) (b c : Nat), b < 32 → c < 64 →
    ∃ t, exec (.readMem b c) s = .next t ∧ t.readReg b = s.readMem c ∧ SameRegsBut b s t ∧
      SameMem s t ∧ Quiet s t) ∧
  (∀ (s : State) (b c : Nat), b < 32 → 64 ≤ c →
    ∃ t, exec (.readMem b c) s = .next t ∧ Skipped .invalidMemoryAddress s t) ∧
  (∀ (s : State) (b c : Nat), 32 ≤ b →
    ∃ t, exec (.readMem b c) s = .next t ∧ Skipped .invalidRegisterIndex s t)

/-- R160: WriteMem, its encoding, its effect, its frame and its two faults, the address check first. The address stored to
is the sum `C+B`, not reduced modulo 64. The premise is an invariant of every run (`State.Inv.memWf`). -/
def Obligations.WriteMemStoresAtTheFieldSum : Prop :=
  (∀ w : Word, w.toNat &&& 0xF = 12 →
    decode w = .writeMem ((w.toNat >>> 4) &&& 0x3F) ((w.toNat >>> 11) &&& 0x1F)
      ((w.toNat >>> 17) &&& 0x1F)) ∧
  (∀ b c d, b < 2 ^ 6 → c < 2 ^ 5 → d < 2 ^ 5 →
    encode (.writeMem b c d) = some (BitVec.ofNat 48 (12 ||| b <<< 4 ||| c <<< 11 ||| d <<< 17))) ∧
  (∀ (s : State) (b c d : Nat), s.mem.wf = true → c + b < 64 → d < 32 →
    ∃ t, exec (.writeMem b c d) s = .next t ∧ t.readMem (c + b) = s.readReg d ∧
      SameMemBut (c + b) s t ∧ SameRegs s t ∧ Quiet s t) ∧
  (∀ (s : State) (b c d : Nat), 64 ≤ c + b →
    ∃ t, exec (.writeMem b c d) s = .next t ∧ Skipped .invalidMemoryAddress s t) ∧
  (∀ (s : State) (b c d : Nat), c + b < 64 → 32 ≤ d →
    ∃ t, exec (.writeMem b c d) s = .next t ∧ Skipped .invalidRegisterIndex s t)

/-- 42_memory_stores.md, ModMem (R161) and the modulo (R162): with every index in range, a divisor that is not zero and a
dividend address in range, the cell at `C+B` becomes the remainder of the cell whose address is the VALUE in register `D`
divided by the value in register `E`, as both were before (R61), and nothing else changes. -/
def Obligations.ModMemStoresTheRemainder : Prop :=
  ∀ (s : State) (b c d e : Nat), s.mem.wf = true → c + b < 64 → d < 32 → e < 32 →
    s.readReg e ≠ 0 → (s.readReg d).toNat < 64 →
    ∃ t, exec (.modMem b c d e) s = .next t ∧
      (t.readMem (c + b)).toNat = (s.readMem (s.readReg d).toNat).toNat % (s.readReg e).toNat ∧
      (t.readMem (c + b)).toNat < (s.readReg e).toNat ∧
      (t.readMem (c + b)).toNat ≤ (s.readMem (s.readReg d).toNat).toNat ∧
      SameMemBut (c + b) s t ∧ SameRegs s t ∧ Quiet s t

/-- 60_exceptions.md R188, R192: a zero divisor, tested after the three index checks, is fatal whatever the dividend address:
the report, no write, HaltedFault, no further word, no snapshot; and nothing else moves a machine to HaltedFault. That `pc` is
advanced past the fatal word is the spec's decision D7 (log 5), the record's content its decision D8 (log 6), and that the
halted machine stays as it is (`step t = next t`, 40_execution_cycle.md R141) its decision D16 (log 7). -/
def Obligations.OnlyAZeroDivisorHaltsEarly : Prop :=
  (∀ (s : State) (b c d e : Nat), c + b < 64 → d < 32 → e < 32 → s.readReg e = 0 →
    ∃ t, exec (.modMem b c d e) s = .next t ∧ HaltedBy .divisionByZero s t ∧ step t = .next t) ∧
  (∀ (i : Instr) (s t : State), exec i s = .next t →
    (⟨.divisionByZero, .word s.pc⟩ : Report) ∈ t.reports.drop s.reports.length →
    ∃ b c d e, i = .modMem b c d e ∧ c + b < 64 ∧ d < 32 ∧ e < 32 ∧ s.readReg e = 0) ∧
  (∀ s t : State, step s = .next t → s.runState ≠ .haltedFault → t.runState = .haltedFault →
    ∃ w b c d e, fetchWord s.prog s.pc = some w ∧ decode w = .modMem b c d e ∧ c + b < 64 ∧
      d < 32 ∧ e < 32 ∧ s.readReg e = 0)

/-- 42_memory_stores.md, ModMem, "If any of the three indices is out of range, report fault and continue (non-fatal)": an
index out of range skips the instruction even when the divisor is 0. The kind reported when several are out of range is the
spec's decision D9 (log 12). -/
def Obligations.ModMemIndexFaultsAreNotFatal : Prop :=
  (∀ (s : State) (b c d e : Nat), 64 ≤ c + b →
    ∃ t, exec (.modMem b c d e) s = .next t ∧ Skipped .invalidMemoryAddress s t) ∧
  (∀ (s : State) (b c d e : Nat), c + b < 64 → 32 ≤ d →
    ∃ t, exec (.modMem b c d e) s = .next t ∧ Skipped .invalidRegisterIndex s t) ∧
  (∀ (s : State) (b c d e : Nat), c + b < 64 → d < 32 → 32 ≤ e →
    ∃ t, exec (.modMem b c d e) s = .next t ∧ Skipped .invalidRegisterIndex s t)

/-- The spec's decision D4 (log 10): with a divisor that is not zero, a dividend address above 63 skips ModMem with the
non-fatal InvalidMemoryAddress. -/
def Obligations.ModMemSkipsOnDividendAddressOutOfRange : Prop :=
  ∀ (s : State) (b c d e : Nat), c + b < 64 → d < 32 → e < 32 → s.readReg e ≠ 0 →
    64 ≤ (s.readReg d).toNat →
    ∃ t, exec (.modMem b c d e) s = .next t ∧ Skipped .invalidMemoryAddress s t

/-- R170: the twelve other opcodes do nothing but the advance every word makes, whatever the other 44 bits hold, and make no
report. -/
def Obligations.UnrecognizedOpcodesDoNothing : Prop :=
  (∀ i ∈ [Instr.nop0, .nop1, .nop2, .nop3, .nop4, .nop5, .nop7, .nop8, .nop9, .nop11, .nop13, .nop15],
    ∀ s : State, exec i s = .next { s with pc := s.pc + 6 }) ∧
  (∀ (w : Word) (s : State), w.toNat &&& 0xF ∈ [0, 1, 2, 3, 4, 5, 7, 8, 9, 11, 13, 15] →
    exec (decode w) s = .next { s with pc := s.pc + 6 })

/-! ### The fault policy and what instructions can touch -/

/-- 60_exceptions.md R186, R187, R188, R190, R191, R192, R196 (one report per instruction and its content are the decisions
D8, D9; log 6, log 12): a word either reports nothing, or makes exactly one report, naming its own offset, and then it
changes no register and no cell and halts the machine only if the cause is the fatal one. -/
def Obligations.AFaultingWordHasNoOtherEffect : Prop :=
  ∀ (i : Instr) (s t : State), exec i s = .next t →
    (t.reports = s.reports ∧ t.runState = s.runState) ∨
    (∃ c, Skipped c s t ∧ c ≠ .divisionByZero) ∨ HaltedBy .divisionByZero s t

/-- 60_exceptions.md R194: no word raises InvalidRegisterIndex, in any state. -/
def Obligations.NoWordRaisesInvalidRegisterIndex : Prop :=
  ∀ s t : State, step s = .next t → ∀ r ∈ t.reports, r.cause = .invalidRegisterIndex → r ∈ s.reports

/-- R21: which instruction reads and writes the Register File, complete. Only the registers listed for an instruction are
written; its effect depends on the registers listed as read and on no other; the snapshot neither reads nor writes one, and
the host's start does not either. -/
def Obligations.RegisterFileAccessIsAsTabled : Prop :=
  (∀ (i : Instr) (s t : State), exec i s = .next t →
    ∀ r, t.readReg r ≠ s.readReg r → r ∈ i.regsWritten) ∧
  (∀ (i : Instr) (s t : State) (regs' : Vector CellVal 32), exec i s = .next t →
    (∀ r ∈ i.regsRead, ({ s with regs := regs' } : State).readReg r = s.readReg r) →
    ∃ t', exec i { s with regs := regs' } = .next t' ∧ t'.mem = t.mem ∧ t'.pc = t.pc ∧
      t'.runState = t.runState ∧ t'.reports = t.reports ∧
      ∀ r, t'.readReg r = t.readReg r ∨
        (t.readReg r = s.readReg r ∧ t'.readReg r = ({ s with regs := regs' } : State).readReg r)) ∧
  (∀ (s : State) (regs' : Vector CellVal 32),
    ({ s with regs := regs' } : State).finish = { s.finish with regs := regs' }) ∧
  (∀ (s t : State) (r : RunInput), s.start r = .next t → t.regs = s.regs)

/-- 20_memory.md R58 (the table of data accesses): only WriteMem and ModMem write Memory, at `C+B` and nowhere else; the
effect of a word depends on the cells it reads and on no other. The premises on Memory are `State.Inv.memWf`. -/
def Obligations.MemoryAccessIsAsTabled : Prop :=
  (∀ (i : Instr) (s t : State), exec i s = .next t →
    ∀ a, t.readMem a ≠ s.readMem a → a ∈ i.cellsWritten) ∧
  (∀ (i : Instr) (s t : State) (mem' : Memory), exec i s = .next t →
    s.mem.wf = true → mem'.wf = true → (∀ a ∈ i.cellsRead s, mem'.read a = s.mem.read a) →
    ∃ t', exec i { s with mem := mem' } = .next t' ∧ t'.regs = t.regs ∧ t'.pc = t.pc ∧
      t'.runState = t.runState ∧ t'.reports = t.reports ∧
      ∀ a, t'.readMem a = t.readMem a ∨
        (t.readMem a = s.readMem a ∧ t'.readMem a = mem'.read a))

/-- 10_state.md R29, R30: no instruction reads or writes the program or the snapshot bounds, which are inputs of the run. -/
def Obligations.ExecutionNeverTouchesTheRunInputs : Prop :=
  ∀ (i : Instr) (s t : State) (prog' : List Byte) (first' last' : Nat), exec i s = .next t →
    exec i { s with prog := prog', first := first', last := last' } =
      .next { t with prog := prog', first := first', last := last' }

/-- 20_memory.md R60, R66: a value stored by one word is what the next word loads from the same cell, and the cell still
holds it after the load. -/
def Obligations.StoredValueIsLoadedBack : Prop :=
  ∀ (s : State) (b c d r : Nat), s.mem.wf = true → c + b < 64 → d < 32 → r < 32 →
    ∃ t u, exec (.writeMem b c d) s = .next t ∧ exec (.readMem r (c + b)) t = .next u ∧
      u.readReg r = s.readReg d ∧ u.readMem (c + b) = s.readReg d ∧ u.pc = s.pc + 12

/-! ### Invariants and whole runs -/

/-- The invariant of every run holds at reset (10_state.md section 6). -/
def Obligations.InvHoldsAtReset : Prop := State.reset.Inv

/-- The invariant is kept by every step: Memory stays canonical (R22), `pc` stays a multiple of 6 inside the stream (R25,
R26), a normal end is at its end (R133), there is a result exactly after a normal end (R175, R180), and the machine is in
HaltedFault exactly when a division by zero was reported (R188, R192). -/
def Obligations.StepKeepsInv : Prop :=
  ∀ s t : State, s.Inv → step s = .next t → t.Inv

/-- The invariant is kept by the host's start (40_execution_cycle.md R130). -/
def Obligations.StartKeepsInv : Prop :=
  ∀ (s t : State) (r : RunInput), s.Inv → s.start r = .next t → t.Inv

/-- 40_execution_cycle.md R132, R134, 30_encoding.md R90, 70_reset_and_hazards.md R230: in a state that meets the invariant
the machine never stops with a fault or a refusal of the model; a running one either ends normally or advances one word. -/
def Obligations.StepAlwaysAnswersANextState : Prop :=
  ∀ s : State, s.Inv → ∃ t, step s = .next t ∧
    (s.runState = .running →
      (s.pc = s.prog.length ∧ t.runState = .haltedNormal ∧ t.pc = s.pc) ∨
      (s.pc < s.prog.length ∧ t.pc = s.pc + 6 ∧ t.runState ∈ [.running, .haltedFault]))

/-- 60_exceptions.md R190, R199, 44_snapshot.md R178 (the record's content is D8, one snapshot report per address D14; log 6,
log 16): reports stand in program order, each names a word already executed, and the snapshot's reports follow them in
increasing order of address. -/
def Obligations.StepKeepsReportsInProgramOrder : Prop :=
  ∀ s t : State, s.Inv → s.reportsInOrder → step s = .next t → t.reportsInOrder

/-- 70_reset_and_hazards.md R230: from a running state with `N` words left the machine executes exactly `N` words, one per
step, and then ends normally, unless a word is fatal, when it has executed the words up to and with that one. So every run
ends. That `pc` is advanced past the fatal word too is the spec's decision D7 (log 5), and the content of that word's record
its decision D8 (log 6). -/
def Obligations.RunExecutesEachWordOnceAndEnds : Prop :=
  ∀ s : State, s.Inv → s.runState = .running →
    ∃ k t, stepN k s = .next t ∧ t.pc = s.pc + 6 * k ∧ k ≤ (s.prog.length - s.pc) / 6 ∧
      (∀ j < k, ∃ u, stepN j s = .next u ∧ u.runState = .running ∧ u.pc = s.pc + 6 * j) ∧
      ((t.runState = .haltedFault ∧ 0 < k ∧
          t.reports.getLast? = some ⟨.divisionByZero, .word (s.pc + 6 * (k - 1))⟩) ∨
        (t.runState = .running ∧ k = (s.prog.length - s.pc) / 6 ∧ t.pc = s.prog.length ∧
          ∃ u, step t = .next u ∧ u.runState = .haltedNormal))

/-- 40_execution_cycle.md R138, R139 (with D5 for the refused streams; log 9): a run of a program of whole words delivers its
reports always and a snapshot exactly when no division by zero was reported; another stream is refused. -/
def Obligations.RunDeliversSnapshotUnlessFatal : Prop :=
  (∀ r : RunInput, r.prog.length % 6 = 0 →
    ∃ d, runProgram r = .next d ∧
      (d.result = none ↔ ∃ x ∈ d.reports, x.cause = .divisionByZero)) ∧
  (∀ r : RunInput, r.prog.length % 6 ≠ 0 →
    runProgram r = .refused .programLengthNotMultipleOfSix)

/-! ### The snapshot -/

/-- R177: the snapshot holds exactly one pair for each address of the inclusive range that lies in bounds, with the cell's
value, in increasing order, and reports each address out of bounds, in increasing order, without ending. -/
def Obligations.SnapshotHoldsTheRangeInBounds : Prop :=
  ∀ (m : Memory) (first last : Nat),
    (∀ a v, (a, v) ∈ (snapshot m first last).1 ↔ first ≤ a ∧ a ≤ last ∧ a < 64 ∧ v = m.read a) ∧
    (snapshot m first last).1.Pairwise (fun p q => p.1 < q.1) ∧
    (∀ r, r ∈ (snapshot m first last).2 ↔
      ∃ a, r = ⟨.invalidMemoryAddress, .snapshotAddress a⟩ ∧ first ≤ a ∧ a ≤ last ∧ 64 ≤ a) ∧
    (snapshot m first last).2.Pairwise Report.before

/-- 44_snapshot.md R178, R179 (one report per address is the decision D14; log 16): the counts of pairs and of reports; an
empty range gives neither, and a range above Memory gives reports only. -/
def Obligations.SnapshotCountsPairsAndReports : Prop :=
  ∀ (m : Memory) (first last : Nat),
    (snapshot m first last).1.length = min (last + 1) 64 - first ∧
    (snapshot m first last).1.length + (snapshot m first last).2.length = last + 1 - first ∧
    (last < first → snapshot m first last = ([], [])) ∧
    (63 < first → (snapshot m first last).1 = [])

/-- 44_snapshot.md R175: the snapshot is produced exactly when the run reaches HaltedNormal, from the Memory the last step
left; it reads Memory only and writes nothing but `reports` (and the result delivered). The third clause does not come from
R175: that a halted machine stays as it is (40_execution_cycle.md R141) is the spec's decision D16 (log 7), and that a machine
in Ready waits in the same way is this model's reading of R131 (log 3). -/
def Obligations.SnapshotIsMadeExactlyAtTheNormalEnd : Prop :=
  (∀ s t : State, s.runState = .running → step s = .next t → t.runState = .haltedNormal →
    t.result = some (snapshot s.mem s.first s.last).1 ∧
    t.reports = s.reports ++ (snapshot s.mem s.first s.last).2 ∧
    SameRegs s t ∧ SameMem s t ∧ t.pc = s.pc ∧ t.prog = s.prog) ∧
  (∀ s t : State, step s = .next t → t.result ≠ s.result →
    s.runState = .running ∧ t.runState = .haltedNormal) ∧
  (∀ s t : State, s.runState ≠ .running → step s = .next t → t = s)

/-- 44_snapshot.md R180: on HaltedFault no snapshot is produced at all and no snapshot report is made; the bounds are never
looked at. That every further step leaves the halted machine as it is (40_execution_cycle.md R141) is the spec's decision D16
(log 7), and the content of the fatal word's record its decision D8 (log 6). -/
def Obligations.FatalFaultSuppressesTheSnapshot : Prop :=
  ∀ s t : State, s.Inv → step s = .next t → t.runState = .haltedFault →
    t.result = none ∧
    (s.runState = .running → t.reports = s.reports ++ [⟨.divisionByZero, .word s.pc⟩]) ∧
    (∀ n, stepN n t = .next t) ∧
    (∀ first' last', step { s with first := first', last := last' } =
      .next { t with first := first', last := last' })

/-! ### The Assembler -/

/-- R102: the bytes are the concatenation of each instruction's encoded word in input order, six per record, none for the
empty list; a list with a malformed record gives an error. -/
def Obligations.AssembleConcatenatesEncodedWords : Prop :=
  (∀ (o : Bool) (rs : List SourceRecord) (is : List Instr), List.Forall₂ RecordNames rs is →
    ∃ ws : List Word, is.map encode = ws.map some ∧
      ∃ a, assemble o rs = .ok a ∧ a.bytes = (ws.map bytesOfWord).flatten ∧
        a.bytes.length = 6 * rs.length) ∧
  (∀ (o : Bool) (rs : List SourceRecord), (∃ r ∈ rs, ∀ i, ¬ RecordNames r i) →
    ∃ e, assemble o rs = .error e)

/-- 30_encoding.md R104 (that the FIRST malformed record decides the error is this model's, log 17): an unknown mnemonic and
a wrong number of arguments are the two errors. -/
def Obligations.AssemblerErrorsNameTheCause : Prop :=
  ∀ (o : Bool) (pre post : List SourceRecord) (r : SourceRecord),
    (∀ x ∈ pre, ∃ i, RecordNames x i) →
    (r.mnemonic ∉ knownMnemonics → assemble o (pre ++ r :: post) = .error .unknownMnemonic) ∧
    (r.mnemonic ∈ knownMnemonics → (∀ i, ¬ RecordNames r i) →
      assemble o (pre ++ r :: post) = .error .wrongArity)

/-- 30_encoding.md R106, R107 (arguments before masking is the decision D17; log 17): one trace record per instruction in
input order, with the opcode and only the first two arguments as given; without an observer there is none; the bytes are the
same either way. -/
def Obligations.TraceKeepsOpcodeAndTwoArguments : Prop :=
  (∀ (rs : List SourceRecord) (is : List Instr) (a : Assembly), List.Forall₂ RecordNames rs is →
    assemble true rs = .ok a → a.trace.length = rs.length ∧
      ∀ (k : Nat) (r : SourceRecord) (i : Instr), rs[k]? = some r → is[k]? = some i →
        ∃ x y rest, r.args = x :: y :: rest ∧ a.trace[k]? = some ⟨i.opcode, x, y⟩) ∧
  (∀ (rs : List SourceRecord) (a : Assembly), assemble true rs = .ok a →
    assemble false rs = .ok ⟨a.bytes, []⟩)

/-- 00_scope.md R3, 30_encoding.md R110, R112: the codec's two directions agree on the whole stream. What the Assembler
writes is a program, and the word fetched at offset `6k` decodes to the `k`-th instruction, each operand reduced to its
mask width. -/
def Obligations.AssembledStreamIsFetchedBack : Prop :=
  ∀ (o : Bool) (rs : List SourceRecord) (a : Assembly), assemble o rs = .ok a →
    a.bytes.length % 6 = 0 ∧
    ∀ (k : Nat) (r : SourceRecord), rs[k]? = some r →
      ∃ i w, RecordNames r i ∧ fetchWord a.bytes (6 * k) = some w ∧ decode w = i.reduced
end

