-- ==== Sys2Proof/Laws/Assembler.lean ====
section
/-! SUPPORT. What the Assembler's checks do, said once. -/

namespace Sys2Proof.Machine

/-- A record passes the check exactly when the table of R101 names its instruction. -/
theorem instrOfRecord_ok_iff (r : SourceRecord) (i : Instr) :
    instrOfRecord r = .ok i ↔ RecordNames r i := by
  obtain ⟨m, args⟩ := r
  simp only [instrOfRecord, RecordNames, SourceRecord.mk.injEq]
  constructor
  · intro h
    split_ifs at h with h1 h2 h3 h4
    · split at h <;> cases h
      exact .inl ⟨_, _, ⟨h1, rfl⟩, rfl⟩
    · split at h <;> cases h
      exact .inr (.inl ⟨_, _, ⟨h2, rfl⟩, rfl⟩)
    · split at h <;> cases h
      exact .inr (.inr (.inl ⟨_, _, _, ⟨h3, rfl⟩, rfl⟩))
    · split at h <;> cases h
      exact .inr (.inr (.inr ⟨_, _, _, _, ⟨h4, rfl⟩, rfl⟩))
  · rintro (⟨b, c, ⟨rfl, rfl⟩, rfl⟩ | ⟨b, c, ⟨rfl, rfl⟩, rfl⟩ | ⟨b, c, d, ⟨rfl, rfl⟩, rfl⟩ |
      ⟨b, c, d, e, ⟨rfl, rfl⟩, rfl⟩) <;> rfl

/-- A list passes the check exactly when each of its records does, in order. -/
theorem instrsOfRecords_ok_iff (rs : List SourceRecord) (is : List Instr) :
    instrsOfRecords rs = .ok is ↔ List.Forall₂ RecordNames rs is := by
  induction rs generalizing is with
  | nil => simp [instrsOfRecords, eq_comm]
  | cons r rs ih =>
    rw [instrsOfRecords]
    cases hr : instrOfRecord r with
    | error e =>
      simp only [reduceCtorEq, false_iff]
      rintro (_ | ⟨h, _⟩)
      rw [← instrOfRecord_ok_iff, hr] at h
      cases h
    | ok i =>
      cases hrs : instrsOfRecords rs with
      | error e =>
        simp only [reduceCtorEq, false_iff]
        rintro (_ | ⟨h, h'⟩)
        rw [← ih, hrs] at h'
        cases h'
      | ok is' =>
        simp only [Except.ok.injEq]
        constructor
        · rintro rfl
          exact .cons ((instrOfRecord_ok_iff _ _).1 hr) ((ih _).1 hrs)
        · rintro (_ | ⟨h, h'⟩)
          rw [← ih, hrs] at h'
          cases h'
          rw [← instrOfRecord_ok_iff, hr] at h
          cases h
          rfl

/-- A record names only instructions the encoder takes (R97, R112). -/
theorem RecordNames.isCore {r : SourceRecord} {i : Instr} (h : RecordNames r i) :
    i.isCore = true := by
  rcases h with ⟨b, c, rfl, rfl⟩ | ⟨b, c, rfl, rfl⟩ | ⟨b, c, d, rfl, rfl⟩ |
    ⟨b, c, d, e, rfl, rfl⟩ <;> rfl

end Sys2Proof.Machine
end

