-- ==== Sys2Proof/Laws/Codec.lean ====
section
/-! SUPPORT. The bit-field operations in arithmetic and bit by bit, and the bytes of a word. -/

namespace Sys2Proof

/-- A field read is a quotient and a remainder. -/
theorem BitField.get_eq (f : BitField) (n : Nat) :
    f.get n = n / 2 ^ f.offset % 2 ^ f.width := by
  rw [BitField.get, BitField.mask, Nat.and_two_pow_sub_one_eq_mod, Nat.shiftRight_eq_div_pow]

/-- A masked operand is placed as a multiple of its offset's power. -/
theorem BitField.put_eq (f : BitField) (v : Nat) :
    f.put v = v % 2 ^ f.width * 2 ^ f.offset := by
  rw [BitField.put, BitField.mask, Nat.and_two_pow_sub_one_eq_mod, Nat.shiftLeft_eq]

theorem BitField.get_lt (f : BitField) (n : Nat) : f.get n < 2 ^ f.width := by
  rw [BitField.get_eq]
  exact Nat.mod_lt _ (Nat.two_pow_pos _)

/-- Bit `i` of a field read. -/
theorem BitField.testBit_get (f : BitField) (n i : Nat) :
    (f.get n).testBit i = (decide (i < f.width) && n.testBit (f.offset + i)) := by
  rw [BitField.get, BitField.mask, Nat.and_two_pow_sub_one_eq_mod, Nat.testBit_mod_two_pow,
    Nat.testBit_shiftRight]

/-- Bit `i` of a masked operand in its place. -/
theorem BitField.testBit_put (f : BitField) (v i : Nat) :
    (f.put v).testBit i =
      (decide (f.offset ≤ i) && (decide (i - f.offset < f.width) && v.testBit (i - f.offset))) := by
  rw [BitField.put, BitField.mask, Nat.and_two_pow_sub_one_eq_mod, Nat.testBit_shiftLeft,
    Nat.testBit_mod_two_pow]

/-- Bit `i` of an operand placed without a mask. -/
theorem BitField.testBit_putUnguarded (f : BitField) (v i : Nat) :
    (f.putUnguarded v).testBit i = (decide (f.offset ≤ i) && v.testBit (i - f.offset)) := by
  rw [BitField.putUnguarded, Nat.testBit_shiftLeft]

/-- Masking an operand that fits changes nothing. -/
theorem BitField.put_eq_putUnguarded (f : BitField) {v : Nat} (h : v < 2 ^ f.width) :
    f.put v = f.putUnguarded v := by
  rw [BitField.put, BitField.putUnguarded, BitField.mask, Nat.and_two_pow_sub_one_eq_mod,
    Nat.mod_eq_of_lt h]

/-- An opcode has no bit at or above bit 4. -/
theorem testBit_opcode {op i : Nat} (h : op < 16) (hi : 4 ≤ i) : op.testBit i = false :=
  Nat.testBit_lt_two_pow (Nat.lt_of_lt_of_le h (Nat.pow_le_pow_right (n := 2) (i := 4) (by omega) hi))

/-- A field of an OR is the OR of the fields. -/
theorem BitField.get_or (f : BitField) (a b : Nat) : f.get (a ||| b) = f.get a ||| f.get b := by
  refine Nat.eq_of_testBit_eq fun i => ?_
  simp only [BitField.testBit_get, Nat.testBit_or]
  cases decide (i < f.width) <;> simp

/-- An operand field of a bare opcode is 0. -/
theorem BitField.get_opcode (f : BitField) {op : Nat} (h : op < 16) (hf : 4 ≤ f.offset) :
    f.get op = 0 := by
  refine Nat.eq_of_testBit_eq fun i => ?_
  simp [BitField.testBit_get, testBit_opcode h (i := f.offset + i) (by omega)]

/-- A field reads back its own masked operand. -/
theorem BitField.get_put_same (f : BitField) (v : Nat) : f.get (f.put v) = v % 2 ^ f.width := by
  refine Nat.eq_of_testBit_eq fun i => ?_
  simp [BitField.testBit_get, BitField.testBit_put, Nat.testBit_mod_two_pow]

/-- A field reads nothing of a masked operand placed below it. -/
theorem BitField.get_put_below (f g : BitField) (v : Nat) (h : g.offset + g.width ≤ f.offset) :
    f.get (g.put v) = 0 := by
  refine Nat.eq_of_testBit_eq fun i => ?_
  simp only [BitField.testBit_get, BitField.testBit_put, Nat.zero_testBit]
  simp
  intros
  omega

/-- A field reads nothing of a masked operand placed above it. -/
theorem BitField.get_put_above (f g : BitField) (v : Nat) (h : f.offset + f.width ≤ g.offset) :
    f.get (g.put v) = 0 := by
  refine Nat.eq_of_testBit_eq fun i => ?_
  simp only [BitField.testBit_get, BitField.testBit_put, Nat.zero_testBit]
  simp
  intros
  omega

/-- A field reads, of an unguarded operand placed at or below it, the operand's bits from the distance on. -/
theorem BitField.get_putUnguarded_below (f g : BitField) (v : Nat) (h : g.offset ≤ f.offset) :
    f.get (g.putUnguarded v) = (v >>> (f.offset - g.offset)) % 2 ^ f.width := by
  refine Nat.eq_of_testBit_eq fun i => ?_
  simp only [BitField.testBit_get, BitField.testBit_putUnguarded, Nat.testBit_mod_two_pow,
    Nat.testBit_shiftRight]
  have : g.offset ≤ f.offset + i := by omega
  simp [this, show f.offset + i - g.offset = f.offset - g.offset + i by omega]

/-- A field reads nothing of an unguarded operand placed above it. -/
theorem BitField.get_putUnguarded_above (f g : BitField) (v : Nat)
    (h : f.offset + f.width ≤ g.offset) : f.get (g.putUnguarded v) = 0 := by
  refine Nat.eq_of_testBit_eq fun i => ?_
  simp only [BitField.testBit_get, BitField.testBit_putUnguarded, Nat.zero_testBit]
  simp
  intros
  omega

/-- Six bytes or more give a word. -/
theorem takeWord_of_length {bs : List Byte} (h : 6 ≤ bs.length) :
    ∃ w rest, takeWord bs = .ok (w, rest) := by
  match bs, h with
  | _ :: _ :: _ :: _ :: _ :: _ :: rest, _ => exact ⟨_, rest, rfl⟩

/-- The bytes of a word are six. -/
@[simp] theorem bytesOfWord_length (w : Word) : (bytesOfWord w).length = 6 := rfl

end Sys2Proof
end

