-- ==== Sys2Proof/Laws/Memory.lean ====
section
/-! SUPPORT. The laws of Memory: a read after a write, and that a write keeps the canonical form. -/

namespace Sys2Proof.Machine

@[simp] theorem Memory.read_nil (a : Nat) : Memory.read [] a = 0 := rfl

/-- An address below every listed one reads as a cell never written. -/
theorem Memory.read_of_risesAbove {lo : Nat} {m : Memory} (h : m.risesAbove lo) {a : Nat}
    (ha : a < lo) : m.read a = Memory.unlisted := by
  induction m generalizing lo with
  | nil => rfl
  | cons e rest ih =>
    obtain ⟨k, v⟩ := e
    simp only [Memory.risesAbove, Bool.and_eq_true, decide_eq_true_eq] at h
    rw [Memory.read, if_neg (by omega)]
    exact ih h.2 (by omega)

/-- A list that rises above a bound rises above a lower one. -/
theorem Memory.risesAbove_mono {lo lo' : Nat} {m : Memory} (h : m.risesAbove lo) (hl : lo' ≤ lo) :
    m.risesAbove lo' := by
  cases m with
  | nil => rfl
  | cons e rest =>
    simp only [Memory.risesAbove, Bool.and_eq_true, decide_eq_true_eq] at h ⊢
    exact ⟨by omega, h.2⟩

/-- A read at the address just written gives the value written (R66). -/
theorem Memory.read_write_same {lo : Nat} {m : Memory} (h : m.risesAbove lo) (a : Nat)
    (v : CellVal) : (m.write a v).read a = v := by
  induction m generalizing lo with
  | nil =>
    by_cases hv : v = Memory.unlisted
    · simp [Memory.write, hv, Memory.unlisted]
    · simp only [Memory.write, if_neg hv, Memory.read, if_true]
  | cons e rest ih =>
    obtain ⟨k, w⟩ := e
    simp only [Memory.risesAbove, Bool.and_eq_true, decide_eq_true_eq] at h
    simp only [Memory.write]
    split
    · split
      · rename_i hak hv
        rw [hv, Memory.read, if_neg (by omega)]
        exact Memory.read_of_risesAbove h.2 (by omega)
      · simp [Memory.read]
    · split
      · split
        · rename_i hak hv
          rw [hv]
          exact Memory.read_of_risesAbove h.2 (by omega)
        · simp [Memory.read]
      · rw [Memory.read, if_neg (by omega)]
        exact ih h.2

/-- A write leaves every other cell alone. -/
theorem Memory.read_write_other {m : Memory} {a x : Nat} (v : CellVal) (hx : x ≠ a) :
    (m.write a v).read x = m.read x := by
  induction m with
  | nil =>
    by_cases hv : v = Memory.unlisted
    · simp only [Memory.write, if_pos hv]
    · simp only [Memory.write, if_neg hv, Memory.read, if_neg (Ne.symm hx)]
  | cons e rest ih =>
    obtain ⟨k, w⟩ := e
    simp only [Memory.write]
    split
    · split
      · rfl
      · rw [Memory.read, if_neg (Ne.symm hx)]
    · split
      · rename_i hak
        subst hak
        split
        · rw [Memory.read, if_neg (Ne.symm hx)]
        · rw [Memory.read, Memory.read, if_neg (Ne.symm hx), if_neg (Ne.symm hx)]
      · rw [Memory.read, Memory.read, ih]

/-- A write keeps the addresses rising. -/
theorem Memory.risesAbove_write {lo : Nat} {m : Memory} (h : m.risesAbove lo) {a : Nat}
    (v : CellVal) (ha : lo ≤ a) : (m.write a v).risesAbove lo := by
  induction m generalizing lo with
  | nil =>
    by_cases hv : v = Memory.unlisted <;> simp [Memory.write, Memory.risesAbove, hv, ha]
  | cons e rest ih =>
    obtain ⟨k, w⟩ := e
    have h' := h
    simp only [Memory.risesAbove, Bool.and_eq_true, decide_eq_true_eq] at h'
    simp only [Memory.write]
    split
    · split
      · exact h
      · simp only [Memory.risesAbove, Bool.and_eq_true, decide_eq_true_eq]
        exact ⟨ha, by omega, h'.2⟩
    · split
      · split
        · exact Memory.risesAbove_mono h'.2 (by omega)
        · simp only [Memory.risesAbove, Bool.and_eq_true, decide_eq_true_eq]
          exact ⟨ha, Memory.risesAbove_mono h'.2 (by omega)⟩
      · simp only [Memory.risesAbove, Bool.and_eq_true, decide_eq_true_eq]
        exact ⟨h'.1, ih h'.2 (by omega)⟩

/-- A write lists no entry but the old ones and, where it is not the unlisted value, its own. -/
theorem Memory.mem_write {m : Memory} {a : Nat} {v : CellVal} {e : Nat × CellVal}
    (h : e ∈ m.write a v) : e ∈ m ∨ (e = (a, v) ∧ v ≠ Memory.unlisted) := by
  induction m with
  | nil =>
    by_cases hv : v = Memory.unlisted
    · simp [Memory.write, hv] at h
    · simp only [Memory.write, if_neg hv, List.mem_singleton] at h
      exact .inr ⟨h, hv⟩
  | cons f rest ih =>
    obtain ⟨k, w⟩ := f
    simp only [Memory.write] at h
    split at h
    · split at h
      · exact .inl h
      · rename_i hv
        rcases List.mem_cons.1 h with h | h
        · exact .inr ⟨h, hv⟩
        · exact .inl h
    · split at h
      · split at h
        · exact .inl (List.mem_cons_of_mem _ h)
        · rename_i hv
          rcases List.mem_cons.1 h with h | h
          · exact .inr ⟨h, hv⟩
          · exact .inl (List.mem_cons_of_mem _ h)
      · rcases List.mem_cons.1 h with h | h
        · exact .inl (h ▸ List.mem_cons_self)
        · rcases ih h with h | h
          · exact .inl (List.mem_cons_of_mem _ h)
          · exact .inr h

/-- The two parts of the canonical form. -/
theorem Memory.wf_iff {m : Memory} : m.wf = true ↔
    m.risesAbove 0 ∧ ∀ e ∈ m, e.1 < 64 ∧ e.2 ≠ Memory.unlisted := by
  simp only [Memory.wf, Bool.and_eq_true, List.all_eq_true, decide_eq_true_eq]
  exact Iff.rfl

/-- A write at a valid address keeps the canonical form. -/
theorem Memory.wf_write {m : Memory} (h : m.wf = true) {a : Nat} (v : CellVal) (ha : a < 64) :
    (m.write a v).wf = true := by
  rw [Memory.wf_iff] at h ⊢
  refine ⟨Memory.risesAbove_write h.1 v (Nat.zero_le a), fun e he => ?_⟩
  rcases Memory.mem_write he with he | ⟨rfl, hv⟩
  · exact h.2 e he
  · exact ⟨ha, hv⟩

/-- In canonical form nothing is listed at 64 or above. -/
theorem Memory.read_of_ge {m : Memory} (h : m.wf = true) {a : Nat} (ha : 64 ≤ a) :
    m.read a = 0 := by
  rw [Memory.wf_iff] at h
  replace h := h.2
  induction m with
  | nil => rfl
  | cons e rest ih =>
    obtain ⟨k, v⟩ := e
    have hk := (h (k, v) List.mem_cons_self).1
    rw [Memory.read, if_neg (by simp only at hk; omega)]
    exact ih fun e he => h e (List.mem_cons_of_mem _ he)

/-- The reset memory is in canonical form. -/
theorem Memory.wf_reset : State.reset.mem.wf = true := rfl

end Sys2Proof.Machine
end

