-- ==== Sys2Proof/Laws/State.lean ====
section
/-! SUPPORT. One lemma per field per update of the state, each true by unfolding the update once. -/

namespace Sys2Proof.Machine

variable (s : State) (i a : Nat) (v : CellVal) (c : Cause)

@[simp] theorem State.writeReg_regs : (s.writeReg i v).regs = s.regs.setIfInBounds i v := rfl
@[simp] theorem State.writeReg_mem : (s.writeReg i v).mem = s.mem := rfl
@[simp] theorem State.writeReg_pc : (s.writeReg i v).pc = s.pc := rfl
@[simp] theorem State.writeReg_runState : (s.writeReg i v).runState = s.runState := rfl
@[simp] theorem State.writeReg_reports : (s.writeReg i v).reports = s.reports := rfl
@[simp] theorem State.writeReg_prog : (s.writeReg i v).prog = s.prog := rfl
@[simp] theorem State.writeReg_first : (s.writeReg i v).first = s.first := rfl
@[simp] theorem State.writeReg_last : (s.writeReg i v).last = s.last := rfl
@[simp] theorem State.writeReg_result : (s.writeReg i v).result = s.result := rfl

@[simp] theorem State.writeMem_regs : (s.writeMem a v).regs = s.regs := rfl
@[simp] theorem State.writeMem_mem : (s.writeMem a v).mem = s.mem.write a v := rfl
@[simp] theorem State.writeMem_pc : (s.writeMem a v).pc = s.pc := rfl
@[simp] theorem State.writeMem_runState : (s.writeMem a v).runState = s.runState := rfl
@[simp] theorem State.writeMem_reports : (s.writeMem a v).reports = s.reports := rfl
@[simp] theorem State.writeMem_prog : (s.writeMem a v).prog = s.prog := rfl
@[simp] theorem State.writeMem_first : (s.writeMem a v).first = s.first := rfl
@[simp] theorem State.writeMem_last : (s.writeMem a v).last = s.last := rfl
@[simp] theorem State.writeMem_result : (s.writeMem a v).result = s.result := rfl

@[simp] theorem State.advance_regs : s.advance.regs = s.regs := rfl
@[simp] theorem State.advance_mem : s.advance.mem = s.mem := rfl
@[simp] theorem State.advance_pc : s.advance.pc = s.pc + 6 := rfl
@[simp] theorem State.advance_runState : s.advance.runState = s.runState := rfl
@[simp] theorem State.advance_reports : s.advance.reports = s.reports := rfl
@[simp] theorem State.advance_prog : s.advance.prog = s.prog := rfl
@[simp] theorem State.advance_first : s.advance.first = s.first := rfl
@[simp] theorem State.advance_last : s.advance.last = s.last := rfl
@[simp] theorem State.advance_result : s.advance.result = s.result := rfl

@[simp] theorem State.takeFault_regs : (s.takeFault c).regs = s.regs := rfl
@[simp] theorem State.takeFault_mem : (s.takeFault c).mem = s.mem := rfl
@[simp] theorem State.takeFault_pc : (s.takeFault c).pc = s.pc + 6 := rfl
@[simp] theorem State.takeFault_runState : (s.takeFault c).runState = if c.fatal then .haltedFault else s.runState := rfl
@[simp] theorem State.takeFault_reports : (s.takeFault c).reports = s.reports ++ [⟨c, .word s.pc⟩] := rfl
@[simp] theorem State.takeFault_prog : (s.takeFault c).prog = s.prog := rfl
@[simp] theorem State.takeFault_first : (s.takeFault c).first = s.first := rfl
@[simp] theorem State.takeFault_last : (s.takeFault c).last = s.last := rfl
@[simp] theorem State.takeFault_result : (s.takeFault c).result = s.result := rfl

@[simp] theorem State.finish_regs : s.finish.regs = s.regs := rfl
@[simp] theorem State.finish_mem : s.finish.mem = s.mem := rfl
@[simp] theorem State.finish_pc : s.finish.pc = s.pc := rfl
@[simp] theorem State.finish_runState : s.finish.runState = .haltedNormal := rfl
@[simp] theorem State.finish_reports : s.finish.reports = s.reports ++ (snapshot s.mem s.first s.last).2 := rfl
@[simp] theorem State.finish_prog : s.finish.prog = s.prog := rfl
@[simp] theorem State.finish_first : s.finish.first = s.first := rfl
@[simp] theorem State.finish_last : s.finish.last = s.last := rfl
@[simp] theorem State.finish_result : s.finish.result = some (snapshot s.mem s.first s.last).1 := rfl

@[simp] theorem State.advance_readReg : s.advance.readReg i = s.readReg i := rfl
@[simp] theorem State.advance_readMem : s.advance.readMem a = s.readMem a := rfl
@[simp] theorem State.takeFault_readReg : (s.takeFault c).readReg i = s.readReg i := rfl
@[simp] theorem State.takeFault_readMem : (s.takeFault c).readMem a = s.readMem a := rfl
@[simp] theorem State.finish_readReg : s.finish.readReg i = s.readReg i := rfl
@[simp] theorem State.finish_readMem : s.finish.readMem a = s.readMem a := rfl
@[simp] theorem State.writeReg_readMem : (s.writeReg i v).readMem a = s.readMem a := rfl
@[simp] theorem State.writeMem_readReg : (s.writeMem a v).readReg i = s.readReg i := rfl

end Sys2Proof.Machine
end

