-- ==== Sys2Proof/Laws/Ops.lean ====
section
/-! SUPPORT. What the shared operations do, each said once. -/

namespace Sys2Proof.Machine

@[simp] theorem invalidReg_iff (i : Nat) : InvalidReg i ↔ 32 ≤ i := Iff.rfl

@[simp] theorem invalidAddr_iff (a : Nat) : InvalidAddr a ↔ 64 ≤ a := Iff.rfl

@[simp] theorem targetAddr_eq (b c : Nat) : targetAddr b c = c + b := rfl

/-- Every register reads 0 after reset (R34). -/
theorem State.reset_readReg (i : Nat) : State.reset.readReg i = 0 := by
  simp only [State.readReg, State.reset, Vector.getElem?_replicate]
  split <;> rfl

/-- A register just written reads as the value written. -/
theorem State.readReg_writeReg_same (s : State) {i : Nat} (v : CellVal) (h : i < 32) :
    (s.writeReg i v).readReg i = v := by
  simp [State.readReg, State.writeReg, h]

/-- Writing a register leaves every other register alone. -/
theorem State.readReg_writeReg_other (s : State) {i j : Nat} (v : CellVal) (h : j ≠ i) :
    (s.writeReg i v).readReg j = s.readReg j := by
  simp [State.readReg, State.writeReg, Ne.symm h]

/-- A cell just written reads as the value written (R66). -/
theorem State.readMem_writeMem_same {s : State} (hs : s.mem.wf = true) (a : Nat) (v : CellVal) :
    (s.writeMem a v).readMem a = v :=
  Memory.read_write_same (Memory.wf_iff.1 hs).1 a v

/-- Writing a cell leaves every other cell alone. -/
theorem State.readMem_writeMem_other (s : State) {a x : Nat} (v : CellVal) (h : x ≠ a) :
    (s.writeMem a v).readMem x = s.readMem x :=
  Memory.read_write_other v h

/-- Appending a report and nothing else. -/
theorem State.takeFault_eq_of_not_fatal (s : State) {c : Cause} (h : c.fatal = false) :
    s.takeFault c = (s.report ⟨c, .word s.pc⟩).advance := by
  simp [State.takeFault, State.report, State.advance, h]

theorem Cause.fatal_iff (c : Cause) : c.fatal = true ↔ c = .divisionByZero := by
  cases c <;> simp [Cause.fatal]

@[simp] theorem divisorIsZero_iff (d : CellVal) : divisorIsZero d = true ↔ d = 0 := by
  simp [divisorIsZero]

/-- The remainder's value (R162): no reduction to 20 bits ever happens. -/
theorem remainder_toNat (a d : CellVal) : (remainder a d).toNat = a.toNat % d.toNat := by
  have h1 : a.toNat % d.toNat ≤ a.toNat := Nat.mod_le _ _
  have h2 := a.isLt
  simp only [remainder, BitVec.toNat_ofNat]
  exact Nat.mod_eq_of_lt (by omega)

theorem constCell_toNat {c : Nat} (h : c < 2 ^ 20) : (constCell c).toNat = c := by
  simpa [constCell] using h

end Sys2Proof.Machine
end

