-- ==== Sys2Proof/Laws/Exec.lean ====
section
/-! SUPPORT. What one word can do, said once: it takes a fault, or it only advances, or it writes one register, or it writes
one Memory cell. -/

namespace Sys2Proof.Machine

/-- LoadConst takes a fault or writes its register. -/
theorem execLoadConst_cases (b c : Nat) (s : State) :
    (32 ≤ b ∧ execLoadConst b c s = .next (s.takeFault .invalidRegisterIndex)) ∨
    (b < 32 ∧ execLoadConst b c s = .next (s.writeReg b (constCell c)).advance) := by
  by_cases h : InvalidReg b
  · exact .inl ⟨h, if_pos h⟩
  · exact .inr ⟨Nat.not_le.1 h, if_neg h⟩

/-- ReadMem takes one of two faults or writes its register. -/
theorem execReadMem_cases (b c : Nat) (s : State) :
    (32 ≤ b ∧ execReadMem b c s = .next (s.takeFault .invalidRegisterIndex)) ∨
    (b < 32 ∧ 64 ≤ c ∧ execReadMem b c s = .next (s.takeFault .invalidMemoryAddress)) ∨
    (b < 32 ∧ c < 64 ∧ execReadMem b c s = .next (s.writeReg b (s.readMem c)).advance) := by
  unfold execReadMem
  by_cases h : InvalidReg b
  · exact .inl ⟨h, if_pos h⟩
  · rw [if_neg h]
    by_cases h' : InvalidAddr c
    · exact .inr (.inl ⟨Nat.not_le.1 h, h', if_pos h'⟩)
    · exact .inr (.inr ⟨Nat.not_le.1 h, Nat.not_le.1 h', if_neg h'⟩)

/-- WriteMem takes one of two faults or writes its cell. -/
theorem execWriteMem_cases (b c d : Nat) (s : State) :
    (64 ≤ c + b ∧ execWriteMem b c d s = .next (s.takeFault .invalidMemoryAddress)) ∨
    (c + b < 64 ∧ 32 ≤ d ∧ execWriteMem b c d s = .next (s.takeFault .invalidRegisterIndex)) ∨
    (c + b < 64 ∧ d < 32 ∧
      execWriteMem b c d s = .next (s.writeMem (c + b) (s.readReg d)).advance) := by
  unfold execWriteMem
  by_cases h : InvalidAddr (targetAddr b c)
  · exact .inl ⟨h, if_pos h⟩
  · rw [if_neg h]
    by_cases h' : InvalidReg d
    · exact .inr (.inl ⟨Nat.not_le.1 h, h', if_pos h'⟩)
    · exact .inr (.inr ⟨Nat.not_le.1 h, Nat.not_le.1 h', if_neg h'⟩)

/-- ModMem takes one of its faults, each in the order of its checks, or writes its cell. -/
theorem execModMem_cases (b c d e : Nat) (s : State) :
    (64 ≤ c + b ∧ execModMem b c d e s = .next (s.takeFault .invalidMemoryAddress)) ∨
    (c + b < 64 ∧ ¬ (d < 32 ∧ e < 32) ∧
      execModMem b c d e s = .next (s.takeFault .invalidRegisterIndex)) ∨
    (c + b < 64 ∧ d < 32 ∧ e < 32 ∧ s.readReg e = 0 ∧
      execModMem b c d e s = .next (s.takeFault .divisionByZero)) ∨
    (c + b < 64 ∧ d < 32 ∧ e < 32 ∧ s.readReg e ≠ 0 ∧ 64 ≤ (s.readReg d).toNat ∧
      execModMem b c d e s = .next (s.takeFault .invalidMemoryAddress)) ∨
    (c + b < 64 ∧ d < 32 ∧ e < 32 ∧ s.readReg e ≠ 0 ∧ (s.readReg d).toNat < 64 ∧
      execModMem b c d e s = .next (s.writeMem (c + b)
        (remainder (s.readMem (s.readReg d).toNat) (s.readReg e))).advance) := by
  unfold execModMem
  by_cases h : InvalidAddr (targetAddr b c)
  · exact .inl ⟨h, if_pos h⟩
  rw [if_neg h]
  replace h := Nat.not_le.1 h
  by_cases hd : InvalidReg d
  · exact .inr (.inl ⟨h, fun hh => Nat.not_le.2 hh.1 hd, if_pos hd⟩)
  rw [if_neg hd]
  replace hd := Nat.not_le.1 hd
  by_cases he : InvalidReg e
  · exact .inr (.inl ⟨h, fun hh => Nat.not_le.2 hh.2 he, if_pos he⟩)
  rw [if_neg he]
  replace he := Nat.not_le.1 he
  by_cases hz : divisorIsZero (s.readReg e) = true
  · exact .inr (.inr (.inl ⟨h, hd, he, (divisorIsZero_iff _).1 hz, if_pos hz⟩))
  rw [if_neg hz]
  replace hz := fun h0 => hz ((divisorIsZero_iff _).2 h0)
  by_cases ha : InvalidAddr (indirectAddr s d)
  · exact .inr (.inr (.inr (.inl ⟨h, hd, he, hz, ha, if_pos ha⟩)))
  · exact .inr (.inr (.inr (.inr ⟨h, hd, he, hz, Nat.not_le.1 ha, if_neg ha⟩)))

/-- What a word can do to the state, for every instruction: the inversion lemma of `exec`. -/
inductive Effect (s : State) : State → Prop where
  /-- A fault was taken. -/
  | fault (c : Cause) : Effect s (s.takeFault c)
  /-- Nothing but the advance. -/
  | idle : Effect s s.advance
  /-- One register was written. -/
  | reg (r : Nat) (v : CellVal) (h : r < 32) : Effect s (s.writeReg r v).advance
  /-- One valid Memory cell was written. -/
  | cell (a : Nat) (v : CellVal) (h : a < 64) : Effect s (s.writeMem a v).advance

/-- Every word answers a next state, with one of the four effects. -/
theorem exec_effect (i : Instr) (s : State) : ∃ t, exec i s = .next t ∧ Effect s t := by
  cases i with
  | loadConst b c =>
    rcases execLoadConst_cases b c s with ⟨_, h⟩ | ⟨hb, h⟩
    · exact ⟨_, h, .fault _⟩
    · exact ⟨_, h, .reg _ _ hb⟩
  | readMem b c =>
    rcases execReadMem_cases b c s with ⟨_, h⟩ | ⟨_, _, h⟩ | ⟨hb, _, h⟩
    · exact ⟨_, h, .fault _⟩
    · exact ⟨_, h, .fault _⟩
    · exact ⟨_, h, .reg _ _ hb⟩
  | writeMem b c d =>
    rcases execWriteMem_cases b c d s with ⟨_, h⟩ | ⟨_, _, h⟩ | ⟨ha, _, h⟩
    · exact ⟨_, h, .fault _⟩
    · exact ⟨_, h, .fault _⟩
    · exact ⟨_, h, .cell _ _ ha⟩
  | modMem b c d e =>
    rcases execModMem_cases b c d e s with ⟨_, h⟩ | ⟨_, _, h⟩ | ⟨_, _, _, _, h⟩ |
      ⟨_, _, _, _, _, h⟩ | ⟨ha, _, _, _, _, h⟩
    · exact ⟨_, h, .fault _⟩
    · exact ⟨_, h, .fault _⟩
    · exact ⟨_, h, .fault _⟩
    · exact ⟨_, h, .fault _⟩
    · exact ⟨_, h, .cell _ _ ha⟩
  | nop0 | nop1 | nop2 | nop3 | nop4 | nop5 | nop7 | nop8 | nop9 | nop11 | nop13 | nop15 =>
    exact ⟨_, rfl, .idle⟩

/-- A next state of a word is one of the four effects. -/
theorem effect_of_exec {i : Instr} {s t : State} (h : exec i s = .next t) : Effect s t := by
  obtain ⟨u, hu, he⟩ := exec_effect i s
  rw [hu] at h
  cases h
  exact he

end Sys2Proof.Machine
end

