-- ==== Sys2Proof/Laws/Cycle.lean ====
section
/-! SUPPORT. What one step can do, said once, and when fetching gives a word. -/

namespace Sys2Proof.Machine

/-- Six bytes at `pc` give a word (R132). -/
theorem fetchWord_of_le {prog : List Byte} {pc : Nat} (h : pc + 6 ≤ prog.length) :
    ∃ w, fetchWord prog pc = some w := by
  obtain ⟨w, rest, hw⟩ := takeWord_of_length (bs := prog.drop pc) (by simp; omega)
  exact ⟨w, by simp [fetchWord, hw]⟩

/-- A word comes from six bytes at `pc` (R132). -/
theorem le_of_fetchWord {prog : List Byte} {pc : Nat} {w : Word} (h : fetchWord prog pc = some w) :
    pc + 6 ≤ prog.length := by
  have h6 : 6 ≤ (prog.drop pc).length := by
    revert h
    unfold fetchWord
    match prog.drop pc with
    | [] | [_] | [_, _] | [_, _, _] | [_, _, _, _] | [_, _, _, _, _] => simp [takeWord]
    | _ :: _ :: _ :: _ :: _ :: _ :: _ => intro _; simp
  simp at h6
  omega

/-- A machine that waits or has halted stays as it is (R141). -/
theorem step_of_not_running {s : State} (h : s.runState ≠ .running) : step s = .next s := by
  cases hr : s.runState <;> simp_all [step, cycle]

/-- A running machine ends the run at the end of the stream and otherwise runs the word fetched. -/
theorem step_of_running {s : State} (h : s.runState = .running) :
    step s = if s.pc = s.prog.length then .next s.finish
      else match fetchWord s.prog s.pc with
        | some w => exec (decode w) s
        | none => .fault .fetchOutsideProgram := by
  cases s; cases h; rfl

/-- Every next state of a step: the machine stays, it ends normally, or it runs one word. -/
theorem step_cases {s t : State} (h : step s = .next t) :
    (s.runState ≠ .running ∧ t = s) ∨
    (s.runState = .running ∧ s.pc = s.prog.length ∧ t = s.finish) ∨
    (s.runState = .running ∧ s.pc ≠ s.prog.length ∧
      ∃ w, fetchWord s.prog s.pc = some w ∧ exec (decode w) s = .next t) := by
  by_cases hr : s.runState = .running
  · rw [step_of_running hr] at h
    by_cases hp : s.pc = s.prog.length
    · rw [if_pos hp] at h
      cases h
      exact .inr (.inl ⟨hr, hp, rfl⟩)
    · rw [if_neg hp] at h
      cases hw : fetchWord s.prog s.pc with
      | some w =>
        simp only [hw] at h
        exact .inr (.inr ⟨hr, hp, w, rfl, h⟩)
      | none => simp [hw] at h
  · rw [step_of_not_running hr] at h
    cases h
    exact .inl ⟨hr, rfl⟩

end Sys2Proof.Machine
end

