-- ==== Sys2Proof/Laws/Faults.lean ====
section
/-! SUPPORT. The shared operations in the terms of Safety: a fault taken is a word skipped or a run halted, and a word that
writes is quiet besides its write. -/

namespace Sys2Proof.Machine

/-- A non-fatal fault skips the word (R191). -/
theorem State.takeFault_skipped (s : State) {c : Cause} (h : c ≠ .divisionByZero) :
    Skipped c s (s.takeFault c) := by
  refine ⟨rfl, fun _ => rfl, fun _ => rfl, rfl, ?_, rfl, rfl, rfl, rfl⟩
  cases c <;> first | rfl | exact absurd rfl h

/-- The fatal fault halts the run (R192). -/
theorem State.takeFault_halted (s : State) :
    HaltedBy .divisionByZero s (s.takeFault .divisionByZero) :=
  ⟨rfl, fun _ => rfl, fun _ => rfl, rfl, rfl, rfl, rfl, rfl, rfl⟩

/-- Writing a register is quiet. -/
theorem State.writeReg_quiet (s : State) (r : Nat) (v : CellVal) :
    Quiet s (s.writeReg r v).advance := ⟨rfl, rfl, rfl, rfl, rfl, rfl, rfl⟩

/-- Writing a cell is quiet. -/
theorem State.writeMem_quiet (s : State) (a : Nat) (v : CellVal) :
    Quiet s (s.writeMem a v).advance := ⟨rfl, rfl, rfl, rfl, rfl, rfl, rfl⟩

end Sys2Proof.Machine
end

