-- ==== Sys2Proof/Laws/PerInstr.lean ====
section
/-! SUPPORT. One lemma per constructor of Instr for the family EncodedOpcode: what the encoder writes is a word whose opcode
is the table's and whose bytes 4 and 5 are 0 (R93, R99). -/

namespace Sys2Proof.Laws.EncodedOpcode

/-- The value the encoder builds for an instruction has the instruction's opcode in its low four bits, and
nothing at bit 30 or above. -/
def Statement (i : Instr) : Prop :=
  ∀ n, encodeNat i = some n → opcodeField.get n = i.opcode ∧ n < 2 ^ 30

/-- Fields placed at bit 4 or above leave the opcode as it is. -/
theorem opcode_or (op n : Nat) (hop : op < 16) (hn : ∀ k < 4, n.testBit k = false) :
    opcodeField.get (op ||| n) = op := by
  refine Nat.eq_of_testBit_eq fun k => ?_
  rw [BitField.testBit_get]
  by_cases hk : k < 4
  · simp [opcodeField, hk, hn k hk]
  · have : op.testBit k = false :=
      Nat.testBit_lt_two_pow (Nat.lt_of_lt_of_le hop (Nat.pow_le_pow_right (n := 2) (i := 4) (by omega) (by omega)))
    simp [opcodeField, hk, this]

/-- A masked operand ends where its field ends. -/
theorem put_lt (f : BitField) (v N : Nat) (h : f.offset + f.width ≤ N) : f.put v < 2 ^ N := by
  rw [BitField.put_eq]
  have h1 : v % 2 ^ f.width < 2 ^ f.width := Nat.mod_lt _ (Nat.two_pow_pos _)
  calc v % 2 ^ f.width * 2 ^ f.offset
      < 2 ^ f.width * 2 ^ f.offset := Nat.mul_lt_mul_of_pos_right h1 (Nat.two_pow_pos _)
    _ = 2 ^ (f.width + f.offset) := by rw [Nat.pow_add]
    _ ≤ 2 ^ N := Nat.pow_le_pow_right (by omega) (by omega)

theorem put_low (f : BitField) (v k : Nat) (h : k < f.offset) : (f.put v).testBit k = false := by
  simp [BitField.testBit_put, Nat.not_le.2 h]

theorem loadConst (b c : Nat) : Statement (.loadConst b c) := by
  rintro n ⟨rfl⟩
  rw [Nat.or_assoc]
  refine ⟨opcode_or 6 _ (by omega) fun k hk => ?_, ?_⟩
  · simp [put_low fieldRcB b k (by simp [fieldRcB]; omega),
      put_low fieldRcC c k (by simp [fieldRcC]; omega)]
  · exact Nat.or_lt_two_pow (by omega)
      (Nat.or_lt_two_pow (put_lt _ _ _ (by simp [fieldRcB])) (put_lt _ _ _ (by simp [fieldRcC])))

theorem readMem (b c : Nat) : Statement (.readMem b c) := by
  rintro n ⟨rfl⟩
  rw [Nat.or_assoc]
  refine ⟨opcode_or 10 _ (by omega) fun k hk => ?_, ?_⟩
  · simp [put_low fieldRcB b k (by simp [fieldRcB]; omega),
      put_low fieldRcC c k (by simp [fieldRcC]; omega)]
  · exact Nat.or_lt_two_pow (by omega)
      (Nat.or_lt_two_pow (put_lt _ _ _ (by simp [fieldRcB])) (put_lt _ _ _ (by simp [fieldRcC])))

theorem writeMem (b c d : Nat) : Statement (.writeMem b c d) := by
  rintro n ⟨rfl⟩
  rw [Nat.or_assoc, Nat.or_assoc]
  refine ⟨opcode_or 12 _ (by omega) fun k hk => ?_, ?_⟩
  · simp [put_low fieldWB b k (by simp [fieldWB]; omega),
      put_low fieldWC c k (by simp [fieldWC]; omega),
      put_low fieldWD d k (by simp [fieldWD]; omega)]
  · exact Nat.or_lt_two_pow (by omega) (Nat.or_lt_two_pow (put_lt _ _ _ (by simp [fieldWB]))
      (Nat.or_lt_two_pow (put_lt _ _ _ (by simp [fieldWC])) (put_lt _ _ _ (by simp [fieldWD]))))

theorem modMem (b c d e : Nat) : Statement (.modMem b c d e) := by
  rintro n ⟨rfl⟩
  rw [Nat.or_assoc, Nat.or_assoc, Nat.or_assoc]
  refine ⟨opcode_or 14 _ (by omega) fun k hk => ?_, ?_⟩
  · simp [put_low fieldMB b k (by simp [fieldMB]; omega),
      put_low fieldMC c k (by simp [fieldMC]; omega),
      put_low fieldMD d k (by simp [fieldMD]; omega),
      put_low fieldME e k (by simp [fieldME]; omega)]
  · exact Nat.or_lt_two_pow (by omega) (Nat.or_lt_two_pow (put_lt _ _ _ (by simp [fieldMB]))
      (Nat.or_lt_two_pow (put_lt _ _ _ (by simp [fieldMC]))
        (Nat.or_lt_two_pow (put_lt _ _ _ (by simp [fieldMD])) (put_lt _ _ _ (by simp [fieldME])))))

/-- The encoder takes no no-operation (R97). -/
theorem of_none {i : Instr} (h : encodeNat i = none) : Statement i :=
  fun n hn => by rw [h] at hn; cases hn

theorem nop0 : Statement .nop0 := of_none rfl
theorem nop1 : Statement .nop1 := of_none rfl
theorem nop2 : Statement .nop2 := of_none rfl
theorem nop3 : Statement .nop3 := of_none rfl
theorem nop4 : Statement .nop4 := of_none rfl
theorem nop5 : Statement .nop5 := of_none rfl
theorem nop7 : Statement .nop7 := of_none rfl
theorem nop8 : Statement .nop8 := of_none rfl
theorem nop9 : Statement .nop9 := of_none rfl
theorem nop11 : Statement .nop11 := of_none rfl
theorem nop13 : Statement .nop13 := of_none rfl
theorem nop15 : Statement .nop15 := of_none rfl

end Sys2Proof.Laws.EncodedOpcode
end

