-- ==== Sys2Proof/Tests/Slice0.lean ====
section
/-! SUPPORT. Tests: the words of spec/opcode_table.json and 95_test_vectors.md, one step of each instruction, the refusals of
WellFormed, and for each statement with hypotheses a concrete case that meets them. Expected results are those of
95_test_vectors.md (its vector is named) or of the rule named. -/

namespace Sys2Proof.Tests

open Sys2Proof.Machine

/-- A running state with some registers and cells set, at offset 0 of an empty stream. -/
def st (regs : List (Nat × CellVal)) (mem : Memory) : State :=
  regs.foldl (fun s p => s.writeReg p.1 p.2) { State.reset with mem := mem, runState := .running }

/-- The next state of an outcome. -/
def next? (o : Host.Outcome State Fault Refusal) : Option State :=
  match o with
  | .next t => some t
  | _ => none

/-- A register, a cell, the run state, the reports and `pc` of an outcome's next state. -/
def reg? (o : Host.Outcome State Fault Refusal) (i : Nat) : Option CellVal :=
  (next? o).map (·.readReg i)
def cell? (o : Host.Outcome State Fault Refusal) (a : Nat) : Option CellVal :=
  (next? o).map (·.readMem a)
def runState? (o : Host.Outcome State Fault Refusal) : Option RunState := (next? o).map (·.runState)
def reports? (o : Host.Outcome State Fault Refusal) : Option (List Report) :=
  (next? o).map (·.reports)
def pc? (o : Host.Outcome State Fault Refusal) : Option Nat := (next? o).map (·.pc)

/-! ### WellFormed refuses an operand one too wide for its field, each field in turn (R82 to R84) -/

theorem test_wf_refuses_loadConst :
    (Instr.loadConst 32 0).wf = false ∧ (Instr.loadConst 0 1048576).wf = false := by decide
theorem test_wf_refuses_readMem :
    (Instr.readMem 32 0).wf = false ∧ (Instr.readMem 0 1048576).wf = false := by decide
theorem test_wf_refuses_writeMem : (Instr.writeMem 64 0 0).wf = false ∧
    (Instr.writeMem 0 32 0).wf = false ∧ (Instr.writeMem 0 0 32).wf = false := by decide
theorem test_wf_refuses_modMem : (Instr.modMem 64 0 0 0).wf = false ∧
    (Instr.modMem 0 32 0 0).wf = false ∧ (Instr.modMem 0 0 32 0).wf = false ∧
    (Instr.modMem 0 0 0 32).wf = false := by decide
theorem test_wf_accepts_largest : (Instr.loadConst 31 1048575).wf = true ∧
    (Instr.readMem 31 1048575).wf = true ∧ (Instr.writeMem 63 31 31).wf = true ∧
    (Instr.modMem 63 31 31 31).wf = true ∧ Instr.nop0.wf = true := by decide

/-! ### Decoding: words written out from the encoding strings of the table, and vectors of 95_test_vectors.md -/

-- bits 47:30 = 0, C = 0b10101010101010101010, slack = 0, B = 0b10101, opcode 0110 (vector E6)
theorem test_decode_loadConst :
    decode 0b000000000000000000101010101010101010100101010110 = .loadConst 21 699050 := by decide
-- C = 0b00000000000000111111 = 63, B = 0b00111, opcode 1010 (vector E11)
theorem test_decode_readMem :
    decode 0b000000000000000000000000000000001111110001111010 = .readMem 7 63 := by decide
-- D = 0b01010, slack, C = 0b10101, slack, B = 0b101010, opcode 1100 (vector E19)
theorem test_decode_writeMem :
    decode 0b000000000000000000000000000101001010101010101100 = .writeMem 42 21 10 := by decide
-- E = 0b10101, slack, D = 0b01010, slack, C = 0b10101, slack, B = 0b101010, opcode 1110 (vector E27)
theorem test_decode_modMem :
    decode 0b000000000000000000001010100101001010101010101110 = .modMem 42 21 10 21 := by decide
-- opcode bits alone (format N), low half of the table
theorem test_decode_nops_low : decode 0b0000 = .nop0 ∧ decode 0b0001 = .nop1 ∧
    decode 0b0010 = .nop2 ∧ decode 0b0011 = .nop3 ∧ decode 0b0100 = .nop4 ∧
    decode 0b0101 = .nop5 := by decide
-- opcode bits alone (format N), high half of the table
theorem test_decode_nops_high : decode 0b0111 = .nop7 ∧ decode 0b1000 = .nop8 ∧
    decode 0b1001 = .nop9 ∧ decode 0b1011 = .nop11 ∧ decode 0b1101 = .nop13 ∧
    decode 0b1111 = .nop15 := by decide
-- vectors K3 to K6: every slack and unused bit set
theorem test_decode_ignored_bits : decode 0xFFFFFFFFFFF6 = .loadConst 31 1048575 ∧
    decode 0xFFFFFFFFFFFA = .readMem 31 1048575 ∧ decode 0xFFFFFFFFFFFC = .writeMem 63 31 31 ∧
    decode 0xFFFFFFFFFFFE = .modMem 63 31 31 31 := by decide
-- vectors K7, K9, K10, K12: one slack bit set
theorem test_decode_slack_bits : decode 0x206 = .loadConst 0 0 ∧ decode 0x40C = .writeMem 0 0 0 ∧
    decode 0x1000C = .writeMem 0 0 0 ∧ decode 0x40000E = .modMem 0 0 0 0 := by decide
-- the single-field vectors E15, E16, E17, E25
theorem test_decode_single_fields : decode 0x1C = .writeMem 1 0 0 ∧ decode 0x80C = .writeMem 0 1 0 ∧
    decode 0x2000C = .writeMem 0 0 1 ∧ decode 0x80000E = .modMem 0 0 0 1 := by decide
-- S1: bytes 06 8C 0C 00 00 00, little-endian, and the byte after them is left
theorem test_decodeBytes_S1 :
    decodeBytes [0x06, 0x8C, 0x0C, 0, 0, 0, 0x77] = .ok (.loadConst 0 803, [0x77]) := by rfl
-- R142: five bytes are no word
theorem test_decodeBytes_truncated : decodeBytes [6, 0, 0, 0, 0] = .error .truncated := by rfl
theorem test_decodeTableWord : decodeTableWord 48 0xE = some (.modMem 0 0 0 0) ∧
    decodeTableWord 8 0x1A = some (.readMem 1 0) := by decide

/-! ### Encoding -/

-- vectors E2, E8, E14, E21: the largest words (R93)
theorem test_encode_largest : encode (.loadConst 31 1048575) = some 0x3FFFFDF6 ∧
    encode (.readMem 31 1048575) = some 0x3FFFFDFA ∧ encode (.writeMem 63 31 31) = some 0x3EFBFC ∧
    encode (.modMem 63 31 31 31) = some 0xFBEFBFE := by decide
-- vectors U1, U5, U6 (masked)
theorem test_encode_masks : encode (.loadConst 32 5) = some 0x1406 ∧
    encode (.writeMem 128 0 0) = some 0xC ∧ encode (.modMem 128 2 2 1) = some 0x84100E := by decide
-- vectors U1, U3, U5, U6 (unguarded)
theorem test_encodeUnguarded : encodeUnguarded (.loadConst 32 5) = some 0x1606 ∧
    encodeUnguarded (.writeMem 64 0 0) = some 0x40C ∧
    encodeUnguarded (.writeMem 128 0 0) = some 0x80C ∧
    encodeUnguarded (.modMem 128 2 2 1) = some 0x84180E := by decide
-- N8, U9: a result past bit 47 has no word; R97: a no-operation is not encoded
theorem test_encode_refuses :
    encodeUnguarded (.loadConst 0 (2 ^ 38)) = none ∧ encode .nop7 = none := by decide
-- S1
theorem test_encodeBytes_S1 : encodeBytes (.loadConst 0 803) = [0x06, 0x8C, 0x0C, 0, 0, 0] := by
  decide

/-! ### One step of each instruction (vectors X of 95_test_vectors.md) -/

-- X2
theorem test_loadConst_X2 : reg? (exec (.loadConst 31 1048575) State.reset) 31 = some 1048575 ∧
    pc? (exec (.loadConst 31 1048575) State.reset) = some 6 := by decide
-- X1
theorem test_loadConst_X1 : reports? (exec (.loadConst 32 5) State.reset) =
    some [⟨.invalidRegisterIndex, .word 0⟩] := by decide
-- X4
theorem test_readMem_X4 : reg? (exec (.readMem 0 63) (st [] [(63, 12)])) 0 = some 12 := by decide
-- X5
theorem test_readMem_X5 : reg? (exec (.readMem 0 64) (st [(0, 12)] [])) 0 = some 12 ∧
    reports? (exec (.readMem 0 64) (st [(0, 12)] [])) = some [⟨.invalidMemoryAddress, .word 0⟩] ∧
    runState? (exec (.readMem 0 64) (st [(0, 12)] [])) = some .running := by decide
-- X12
theorem test_writeMem_X12 : cell? (exec (.writeMem 1 1 4) (st [(4, 77)] [])) 2 = some 77 ∧
    cell? (exec (.writeMem 1 1 4) (st [(4, 77)] [])) 1 = some 0 := by decide
-- X10
theorem test_writeMem_X10 : reports? (exec (.writeMem 33 31 4) (st [(4, 77)] [])) =
    some [⟨.invalidMemoryAddress, .word 0⟩] ∧
    (next? (exec (.writeMem 33 31 4) (st [(4, 77)] []))).map (·.mem) = some [] := by decide
-- X26
theorem test_modMem_X26 :
    cell? (exec (.modMem 2 0 1 3) (st [(1, 7), (3, 4)] [(1, 99), (7, 30)])) 2 = some 2 := by decide
-- X24: the zero test comes before the dividend's address
theorem test_modMem_X24 :
    runState? (exec (.modMem 0 0 0 1) (st [(0, 64)] [])) = some .haltedFault ∧
    reports? (exec (.modMem 0 0 0 1) (st [(0, 64)] [])) = some [⟨.divisionByZero, .word 0⟩] := by
  decide
-- X22: D = E and the target is the dividend's cell
theorem test_aliases_X22 : cell? (exec (.modMem 9 0 2 2) (st [(2, 9)] [(9, 25)])) 9 = some 7 := by
  decide
-- X13: storing 0 removes the entry, so memory is the canonical empty list again
theorem test_writeMem_X13 :
    (next? (exec (.writeMem 8 0 9) (st [] [(8, 77)]))).map (·.mem) = some [] := by decide
-- X28: opcode 15 over the bits of mod_mem 2, 0, 1, 1
theorem test_nop_X28 : exec (decode 0x82002F) State.reset = .next { State.reset with pc := 6 } := rfl

/-! ### The step, start, snapshot, Assembler, run -/

-- R130: the host's start, and refusals (R142, D16)
theorem test_start :
    runState? (State.reset.start ⟨[0, 0, 0, 0, 0, 0], 3, 10⟩) = some .running := by decide
theorem test_start_refuses :
    State.reset.start ⟨[1, 2], 0, 0⟩ = .refused .programLengthNotMultipleOfSix ∧
    (st [] []).start ⟨[], 0, 0⟩ = .refused .startNotReady := ⟨rfl, rfl⟩
-- the word placed at reset is the first instruction run: S1
theorem test_withFetchWord : reg? (step (State.reset.withFetchWord 48 0x0C8C06)) 0 = some 803 ∧
    pc? (step (State.reset.withFetchWord 48 0x0C8C06)) = some 6 := by decide
-- R133 at the end of the stream, P6: the empty program with range 0 to 1
theorem test_run_P6 : runProgram ⟨[], 0, 1⟩ = .next ⟨[], some [(0, 0), (1, 0)]⟩ := rfl
-- a stream that ends inside a word is outside every run: the model's own fault
theorem test_fetch_outside :
    step { st [] [] with prog := [0, 0] } = .fault .fetchOutsideProgram := rfl
-- Z3
theorem test_snapshot_Z3 : snapshot [(62, 7), (63, 1048575)] 62 65 =
    ([(62, 7), (63, 1048575)], [⟨.invalidMemoryAddress, .snapshotAddress 64⟩,
      ⟨.invalidMemoryAddress, .snapshotAddress 65⟩]) := by decide
-- Z5
theorem test_snapshot_Z5 : snapshot [(3, 17)] 10 3 = ([], []) := by decide
-- A3
theorem test_assemble_A3 : assemble true [⟨"write_mem", [1, 1, 1]⟩, ⟨"mod_mem", [2, 0, 1, 1]⟩] =
    .ok ⟨[0x1C, 8, 2, 0, 0, 0, 0x2E, 0, 0x82, 0, 0, 0], [⟨12, 1, 1⟩, ⟨14, 2, 0⟩]⟩ := by rfl
-- A4
theorem test_assemble_A4 : assemble true [⟨"load_const", [32, 5]⟩] =
    .ok ⟨[6, 0x14, 0, 0, 0, 0], [⟨6, 32, 5⟩]⟩ := by rfl
-- A5
theorem test_assemble_A5 : assemble true [⟨"load_const", [0, 5]⟩, ⟨"jump", [3]⟩] =
    .error .unknownMnemonic := by rfl
-- A7
theorem test_assemble_A7 : assemble true [⟨"load_const", [0, 5, 9]⟩] = .error .wrongArity := by rfl

/-! ### Witnesses: for each statement with hypotheses, concrete cases that meet them, at the bounds of each clause -/

-- DecodeReadsOpcodeAndMaskedFields, LoadConst/ReadMem/WriteMem: words of the four opcodes and of another
theorem test_witness_opcodes : (0xC8C06 : Word).toNat &&& 0xF = 6 ∧
    (0x3FFFFDFA : Word).toNat &&& 0xF = 10 ∧ (0x3EFBFC : Word).toNat &&& 0xF = 12 ∧
    (0xFBEFBFE : Word).toNat &&& 0xF = 14 ∧ (0xFFFFFFFFFFFF : Word).toNat &&& 0xF ∉ [6, 10, 12, 14] := by
  decide
-- IgnoredBitsNeverReachTheDecoder: K6 and E21
theorem test_witness_ignoredBits : (0xFFFFFFFFFFFE : Word).toNat &&&
      decodedBits ((0xFFFFFFFFFFFE : Word).toNat &&& 0xF) =
    (0xFBEFBFE : Word).toNat &&& decodedBits ((0xFFFFFFFFFFFE : Word).toNat &&& 0xF) := by decide
-- DecodeUndoesEncode: a wide operand, and the widest that fit
theorem test_witness_roundTrip : (Instr.loadConst 32 1048576).isCore = true ∧
    (Instr.modMem 63 31 31 31).isCore = true ∧ (Instr.modMem 63 31 31 31).wf = true := by decide
-- EncoderSetsOnlyOpcodeAndMaskedFields
theorem test_witness_encoder : Instr.nop15.isCore = false ∧
    encode (.writeMem 63 31 31) = some 0x3EFBFC := by decide
-- EncodeAfterDecodeClearsIgnoredBits: K14
theorem test_witness_encodeAfterDecode : (decode 0x123456789ABC).isCore = true := by decide
-- UnguardedOperandsOverflowUpward: U1, an address of the same kind, U5, U6
theorem test_witness_unguarded : encodeUnguarded (.loadConst 32 5) = some 0x1606 ∧
    encodeUnguarded (.readMem 64 0) = some 0x40A ∧
    encodeUnguarded (.writeMem 128 0 0) = some 0x80C ∧
    encodeUnguarded (.modMem 128 2 2 1) = some 0x84180E := by decide
-- WordsAreLittleEndian: the last word of a stream of twelve bytes, and an encoded instruction
theorem test_witness_littleEndian : 6 + 6 ≤ (List.replicate 12 (0 : Byte)).length ∧
    encode (.loadConst 0 803) = some 0xC8C06 := by decide
-- StartHandsOverTheProgram: its three clauses
theorem test_witness_start : State.reset.runState = .ready ∧
    ([0, 0, 0, 0, 0, 0] : List Byte).length % 6 = 0 ∧ ([1] : List Byte).length % 6 ≠ 0 ∧
    (st [] []).runState ≠ .ready := by decide

/-- P7 of 95_test_vectors.md, just started. -/
def p7 : State :=
  { State.reset with
    runState := .running
    prog := [6, 0, 1, 0, 0, 0, 0x0E, 0, 0x80, 0, 0, 0] }

-- P7 before its fatal word
def p7Fatal : State := { p7 with pc := 6, regs := State.reset.regs.setIfInBounds 0 64 }

-- P7 after its fatal word
def p7Halted : State :=
  { p7Fatal with
    pc := 12, runState := .haltedFault, reports := [⟨.divisionByZero, .word 6⟩] }

-- the empty program just started, at its end
def p6 : State := { State.reset with runState := .running, first := 62, last := 65 }

theorem test_witness_inv_p7 : p7.Inv :=
  ⟨by decide, by decide, by decide, by decide, nofun, nofun, by decide,
    ⟨fun h => by simp [State.fatalReported, p7, State.reset] at h, nofun⟩⟩
theorem test_witness_inv_p7Fatal : p7Fatal.Inv :=
  ⟨by decide, by decide, by decide, by decide, nofun, nofun, by decide,
    ⟨fun h => by simp [State.fatalReported, p7Fatal, p7, State.reset] at h, nofun⟩⟩
theorem test_witness_inv_reset : State.reset.Inv :=
  ⟨by decide, by decide, by decide, by decide, fun _ => ⟨rfl, rfl, rfl, rfl⟩, nofun, by decide,
    ⟨fun h => by simp [State.fatalReported, State.reset] at h, nofun⟩⟩
-- StepRunsTheDecodedWord, RunExecutesEachWordOnceAndEnds: the last word of a stream
theorem test_witness_step : p7Fatal.runState = .running ∧
    p7Fatal.pc + 6 ≤ p7Fatal.prog.length := by decide
-- PlacedWordIsRunNext
theorem test_witness_placed : decodeTableWord 48 0x0C8C06 = some (.loadConst 0 803) := by decide
-- ExhaustedStreamEndsTheRunNormally, SnapshotIsMadeExactlyAtTheNormalEnd: all premises of each clause
theorem test_witness_end : p6.runState = .running ∧ p6.pc = p6.prog.length ∧
    runState? (step p6) = some .haltedNormal ∧ p6.runState ≠ .haltedNormal ∧
    (next? (step p6)).map (·.result) ≠ some p6.result := by decide
-- SnapshotIsMadeExactlyAtTheNormalEnd (last clause), HaltedMachineStaysHalted
theorem test_witness_halted : p7Halted.runState ≠ .running ∧ step p7Halted = .next p7Halted :=
  ⟨by decide, rfl⟩
-- OnlyAZeroDivisorHaltsEarly (third clause), FatalFaultSuppressesTheSnapshot, StepKeepsInv
theorem test_witness_fatal : step p7Fatal = .next p7Halted ∧
    p7Fatal.runState ≠ .haltedFault ∧ p7Halted.runState = .haltedFault := ⟨rfl, by decide, rfl⟩
-- OnlyAZeroDivisorHaltsEarly (second clause), AFaultingWordHasNoOtherEffect
theorem test_witness_fatalReport : exec (.modMem 0 0 0 1) p7Fatal = .next p7Halted ∧
    (⟨.divisionByZero, .word p7Fatal.pc⟩ : Report) ∈
      p7Halted.reports.drop p7Fatal.reports.length := ⟨rfl, by decide⟩
-- LoadConstWritesTheConstant: its clauses at the bounds
theorem test_witness_loadConst : 31 < 32 ∧ 1048575 < 2 ^ 20 ∧ 32 ≤ 32 ∧ 31 < 2 ^ 5 := by decide
-- ReadMemCopiesTheCell
theorem test_witness_readMem : (31 < 32 ∧ 63 < 64) ∧ (31 < 32 ∧ 64 ≤ 64) ∧ 32 ≤ 32 := by decide
-- WriteMemStoresAtTheFieldSum: B = 32, C = 31 and B = 33, C = 31
theorem test_witness_writeMem : ((st [(4, 77)] [(3, 5)]).mem.wf = true ∧ 31 + 32 < 64 ∧ 31 < 32) ∧
    64 ≤ 31 + 33 ∧ (31 + 32 < 64 ∧ 32 ≤ 32) ∧ (63 < 2 ^ 6 ∧ 31 < 2 ^ 5) := by decide
-- ModMemStoresTheRemainder: dividend address 63, divisor 1, target 63
theorem test_witness_modMem : (st [(0, 63), (31, 1)] [(63, 9)]).mem.wf = true ∧ 31 + 32 < 64 ∧
    0 < 32 ∧ 31 < 32 ∧ (st [(0, 63), (31, 1)] [(63, 9)]).readReg 31 ≠ 0 ∧
    ((st [(0, 63), (31, 1)] [(63, 9)]).readReg 0).toNat < 64 := by decide
-- OnlyAZeroDivisorHaltsEarly (first clause)
theorem test_witness_modMem_zero : 31 + 32 < 64 ∧ 31 < 32 ∧ State.reset.readReg 31 = 0 := by decide
-- ModMemIndexFaultsAreNotFatal: its three clauses at the bounds
theorem test_witness_modMem_index : 64 ≤ 1 + 63 ∧ (0 + 63 < 64 ∧ 32 ≤ 32) ∧
    (0 + 63 < 64 ∧ 31 < 32 ∧ 32 ≤ 32) := by decide
-- ModMemSkipsOnDividendAddressOutOfRange: X23
theorem test_witness_modMem_dividend : 0 + 0 < 64 ∧ 0 < 32 ∧ 1 < 32 ∧
    (st [(0, 64), (1, 25)] []).readReg 1 ≠ 0 ∧
    64 ≤ ((st [(0, 64), (1, 25)] []).readReg 0).toNat := by decide
-- UnrecognizedOpcodesDoNothing
theorem test_witness_nops : Instr.nop15 ∈ [Instr.nop0, .nop1, .nop2, .nop3, .nop4, .nop5, .nop7, .nop8,
      .nop9, .nop11, .nop13, .nop15] ∧
    (0x82002F : Word).toNat &&& 0xF ∈ [0, 1, 2, 3, 4, 5, 7, 8, 9, 11, 13, 15] := by decide
-- NoWordRaisesInvalidRegisterIndex: a step from a state that already holds such a report
theorem test_witness_registerReport :
    (step { p7Halted with reports := [⟨.invalidRegisterIndex, .word 0⟩] } =
      .next { p7Halted with reports := [⟨.invalidRegisterIndex, .word 0⟩] }) ∧
    ∃ r ∈ [(⟨.invalidRegisterIndex, .word 0⟩ : Report)], r.cause = .invalidRegisterIndex :=
  ⟨rfl, by decide⟩
-- RegisterFileAccessIsAsTabled: a write that changes a register; two register files that agree on register 0; a start
theorem test_witness_registers :
    reg? (exec (.loadConst 31 5) State.reset) 31 ≠ some (State.reset.readReg 31) ∧
    (next? (exec (.writeMem 0 0 0) (st [] []))).isSome = true ∧
    (∀ r ∈ (Instr.writeMem 0 0 0).regsRead,
      ({ st [] [] with regs := State.reset.regs.setIfInBounds 1 9 } : State).readReg r =
        (st [] []).readReg r) ∧
    (next? (State.reset.start ⟨[], 0, 0⟩)).isSome = true := by decide
-- MemoryAccessIsAsTabled: a store that changes a cell; two memories that agree on the cell read
theorem test_witness_memory :
    cell? (exec (.writeMem 63 0 4) (st [(4, 77)] [])) 63 ≠ some ((st [(4, 77)] []).readMem 63) ∧
    (next? (exec (.readMem 0 63) (st [] [(63, 12)]))).isSome = true ∧
    (st [] [(63, 12)]).mem.wf = true ∧ Memory.wf [(5, 1), (63, 12)] = true ∧
    (∀ a ∈ (Instr.readMem 0 63).cellsRead (st [] [(63, 12)]),
      Memory.read [(5, 1), (63, 12)] a = (st [] [(63, 12)]).mem.read a) := by decide
-- ExecutionNeverTouchesTheRunInputs
theorem test_witness_inputs : exec .nop0 p6 = .next { p6 with pc := 6 } := rfl
-- StoredValueIsLoadedBack
theorem test_witness_storeLoad : (st [(31, 7)] []).mem.wf = true ∧ 31 + 32 < 64 ∧ 31 < 32 ∧ 0 < 32 := by
  decide
-- StartKeepsInv (with test_witness_inv_reset)
theorem test_witness_startInv : State.reset.start ⟨p7.prog, 0, 0⟩ = .next p7 := rfl
-- StepKeepsReportsInProgramOrder (with test_witness_inv_p7Fatal and test_witness_fatal)
theorem test_witness_reportsInOrder : p7Fatal.reportsInOrder :=
  ⟨List.Pairwise.nil, fun _ h => by cases h⟩
-- RunDeliversSnapshotUnlessFatal: its two clauses
theorem test_witness_run : p7.prog.length % 6 = 0 ∧ ([6] : List Byte).length % 6 ≠ 0 := by decide
-- SnapshotCountsPairsAndReports: its two clauses with a premise
theorem test_witness_snapshot : 3 < 10 ∧ 63 < 64 := by decide
-- AssembleConcatenatesEncodedWords, TraceKeepsOpcodeAndTwoArguments: a list of two records
theorem test_witness_records : List.Forall₂ RecordNames
    [⟨"write_mem", [1, 1, 1]⟩, ⟨"read_mem", [0, 64]⟩] [.writeMem 1 1 1, .readMem 0 64] :=
  .cons (.inr (.inr (.inl ⟨1, 1, 1, rfl, rfl⟩))) (.cons (.inr (.inl ⟨0, 64, rfl, rfl⟩)) .nil)
-- AssembleConcatenatesEncodedWords (error clause), AssemblerErrorsNameTheCause: a malformed record of each kind
theorem test_witness_malformed : (∀ i, ¬ RecordNames ⟨"load_const", [0]⟩ i) ∧
    "load_const" ∈ knownMnemonics ∧ "jump" ∉ knownMnemonics ∧
    (∃ i, RecordNames ⟨"load_const", [0, 5]⟩ i) :=
  ⟨fun i h => by simp [RecordNames] at h, by decide, by decide, ⟨_, .inl ⟨0, 5, rfl, rfl⟩⟩⟩
-- TraceKeepsOpcodeAndTwoArguments, AssembledStreamIsFetchedBack: a call that succeeds, and its only record
theorem test_witness_assembled :
    (∃ a, assemble true [⟨"load_const", [32, 5]⟩] = .ok a) ∧
    ([⟨"load_const", [32, 5]⟩] : List SourceRecord)[0]? = some ⟨"load_const", [32, 5]⟩ ∧
    ([.loadConst 32 5] : List Instr)[0]? = some (.loadConst 32 5) := ⟨⟨_, rfl⟩, rfl, rfl⟩

end Sys2Proof.Tests
end

section
/-! The codec's round trip, one word at a time: the word of an encoded instruction decodes to the reduced instruction, and
six bytes of a word give the word back (R54, R96). -/

namespace Sys2Proof

/-- On a value of at most 48 bits the decoder reads the value itself. -/
theorem decode_ofNat {n : Nat} (h : n < 2 ^ 48) :
    decode (BitVec.ofNat 48 n) = decodeFields (opcodeField.get n) n := by
  rw [decode, BitVec.toNat_ofNat, Nat.mod_eq_of_lt h]

/-- The opcode and the size of every encoded value, from the law of its constructor. -/
theorem encodedOpcode (i : Instr) : Laws.EncodedOpcode.Statement i := by
  cases i with
  | loadConst b c => exact Laws.EncodedOpcode.loadConst b c
  | readMem b c => exact Laws.EncodedOpcode.readMem b c
  | writeMem b c d => exact Laws.EncodedOpcode.writeMem b c d
  | modMem b c d e => exact Laws.EncodedOpcode.modMem b c d e
  | _ => exact Laws.EncodedOpcode.of_none rfl

section
variable (op b c d e : Nat) (hop : op < 16)
include hop

/-- Format RC (R82): each field reads back its own operand of an encoded value. -/
theorem get_encoded_rc :
    fieldRcB.get (op ||| fieldRcB.put b ||| fieldRcC.put c) = b % 2 ^ 5 ∧
    fieldRcC.get (op ||| fieldRcB.put b ||| fieldRcC.put c) = c % 2 ^ 20 := by
  simp [BitField.get_or, BitField.get_opcode, BitField.get_put_same, BitField.get_put_below,
    BitField.get_put_above, hop, fieldRcB, fieldRcC]

/-- Format W (R83): each field reads back its own operand of an encoded value. -/
theorem get_encoded_w :
    fieldWB.get (op ||| fieldWB.put b ||| fieldWC.put c ||| fieldWD.put d) = b % 2 ^ 6 ∧
    fieldWC.get (op ||| fieldWB.put b ||| fieldWC.put c ||| fieldWD.put d) = c % 2 ^ 5 ∧
    fieldWD.get (op ||| fieldWB.put b ||| fieldWC.put c ||| fieldWD.put d) = d % 2 ^ 5 := by
  simp [BitField.get_or, BitField.get_opcode, BitField.get_put_same, BitField.get_put_below,
    BitField.get_put_above, hop, fieldWB, fieldWC, fieldWD]

/-- Format M (R84): each field reads back its own operand of an encoded value. -/
theorem get_encoded_m :
    fieldMB.get (op ||| fieldMB.put b ||| fieldMC.put c ||| fieldMD.put d ||| fieldME.put e) =
      b % 2 ^ 6 ∧
    fieldMC.get (op ||| fieldMB.put b ||| fieldMC.put c ||| fieldMD.put d ||| fieldME.put e) =
      c % 2 ^ 5 ∧
    fieldMD.get (op ||| fieldMB.put b ||| fieldMC.put c ||| fieldMD.put d ||| fieldME.put e) =
      d % 2 ^ 5 ∧
    fieldME.get (op ||| fieldMB.put b ||| fieldMC.put c ||| fieldMD.put d ||| fieldME.put e) =
      e % 2 ^ 5 := by
  simp [BitField.get_or, BitField.get_opcode, BitField.get_put_same, BitField.get_put_below,
    BitField.get_put_above, hop, fieldMB, fieldMC, fieldMD, fieldME]

end

/-- The fields of an encoded value are the instruction's operands, reduced. -/
theorem decodeFields_encodeNat {i : Instr} {n : Nat} (h : encodeNat i = some n) :
    decodeFields i.opcode n = i.reduced := by
  cases i with
  | loadConst b c =>
    obtain rfl := Option.some.inj h
    obtain ⟨hb, hc⟩ := get_encoded_rc 6 b c (by decide)
    rw [Instr.opcode, decodeFields, hb, hc, Instr.reduced]
  | readMem b c =>
    obtain rfl := Option.some.inj h
    obtain ⟨hb, hc⟩ := get_encoded_rc 10 b c (by decide)
    rw [Instr.opcode, decodeFields, hb, hc, Instr.reduced]
  | writeMem b c d =>
    obtain rfl := Option.some.inj h
    obtain ⟨hb, hc, hd⟩ := get_encoded_w 12 b c d (by decide)
    rw [Instr.opcode, decodeFields, hb, hc, hd, Instr.reduced]
  | modMem b c d e =>
    obtain rfl := Option.some.inj h
    obtain ⟨hb, hc, hd, he⟩ := get_encoded_m 14 b c d e (by decide)
    rw [Instr.opcode, decodeFields, hb, hc, hd, he, Instr.reduced]
  | _ => cases h

/-- Decoding the encoder's word gives the instruction with its operands reduced (R96). -/
theorem decode_of_encode {i : Instr} {w : Word} (h : encode i = some w) : decode w = i.reduced := by
  obtain ⟨n, hn, rfl⟩ := Option.map_eq_some_iff.1 h
  obtain ⟨hop, hlt⟩ := encodedOpcode i n hn
  rw [decode_ofNat (hlt.trans (by decide)), hop, decodeFields_encodeNat hn]

/-- The encoder takes each of the four instructions (R97). -/
theorem exists_encode_of_isCore {i : Instr} (h : i.isCore = true) : ∃ w, encode i = some w := by
  cases i with
  | loadConst | readMem | writeMem | modMem => exact ⟨_, rfl⟩
  | _ => cases h

/-- Byte `k` of a word, put back in its place, holds the word's bits `8k` to `8k+7` and no other. -/
theorem testBit_byte_shiftLeft (w : Word) (k i : Nat) :
    ((w.extractLsb' (8 * k) 8).toNat <<< (8 * k)).testBit i =
      (decide (i / 8 = k) && w.toNat.testBit i) := by
  rw [BitVec.extractLsb'_toNat, Nat.testBit_shiftLeft, Nat.testBit_mod_two_pow,
    Nat.testBit_shiftRight]
  by_cases hk : i / 8 = k
  · have hle : 8 * k ≤ i := by omega
    have hlt : i - 8 * k < 8 := by omega
    simp [hk, hle, hlt]
  · have hout : 8 * k ≤ i → ¬ i - 8 * k < 8 := by omega
    by_cases hle : 8 * k ≤ i <;> simp [hk, hle, hout]

/-- The six bytes of a word, placed little-endian, make up its value. -/
theorem toNat_eq_or_bytes (w : Word) :
    (w.extractLsb' 0 8).toNat ||| (w.extractLsb' 8 8).toNat <<< 8 |||
      (w.extractLsb' 16 8).toNat <<< 16 ||| (w.extractLsb' 24 8).toNat <<< 24 |||
      (w.extractLsb' 32 8).toNat <<< 32 ||| (w.extractLsb' 40 8).toNat <<< 40 = w.toNat := by
  refine Nat.eq_of_testBit_eq fun i => ?_
  have hbyte := testBit_byte_shiftLeft w
  have h0 := hbyte 0 i
  have h1 := hbyte 1 i
  have h2 := hbyte 2 i
  have h3 := hbyte 3 i
  have h4 := hbyte 4 i
  have h5 := hbyte 5 i
  simp only [Nat.mul_zero, Nat.shiftLeft_zero, Nat.reduceMul] at h0 h1 h2 h3 h4 h5
  simp only [Nat.testBit_or, h0, h1, h2, h3, h4, h5]
  cases hw : w.toNat.testBit i with
  | false => simp
  | true =>
    have hi : i < 48 := by
      by_contra hge
      rw [Nat.testBit_lt_two_pow (w.isLt.trans_le (Nat.pow_le_pow_right (by decide) (not_lt.1 hge)))]
        at hw
      cases hw
    simp only [Bool.and_true, Bool.or_eq_true, decide_eq_true_eq]
    omega

/-- Taking a word off a stream undoes writing its bytes (R54). -/
@[simp] theorem takeWord_bytesOfWord_append (w : Word) (rest : List Byte) :
    takeWord (bytesOfWord w ++ rest) = .ok (w, rest) := by
  simp only [bytesOfWord, List.cons_append, List.nil_append, takeWord, wordOfBytes,
    toNat_eq_or_bytes, BitVec.ofNat_toNat, BitVec.setWidth_eq]

theorem encodeBytes_of_encode {i : Instr} {w : Word} (h : encode i = some w) :
    encodeBytes i = bytesOfWord w := by
  rw [encodeBytes, h]

/-- A list of the four instructions is encoded word by word. -/
theorem exists_words_of_isCore {is : List Instr} (h : ∀ i ∈ is, i.isCore = true) :
    ∃ ws : List Word, is.map encode = ws.map some := by
  induction is with
  | nil => exact ⟨[], rfl⟩
  | cons i is ih =>
    obtain ⟨w, hw⟩ := exists_encode_of_isCore (h i List.mem_cons_self)
    obtain ⟨ws, hws⟩ := ih fun j hj => h j (List.mem_cons_of_mem _ hj)
    exact ⟨w :: ws, by rw [List.map_cons, List.map_cons, hw, hws]⟩

/-- The bytes of a list of instructions are the bytes of their words. -/
theorem flatMap_encodeBytes {is : List Instr} {ws : List Word} (h : is.map encode = ws.map some) :
    is.flatMap encodeBytes = ws.flatMap bytesOfWord := by
  induction is generalizing ws with
  | nil => rw [List.map_eq_nil_iff.1 h.symm, List.flatMap_nil, List.flatMap_nil]
  | cons i is ih =>
    obtain ⟨w, ws, rfl, hw, hws⟩ := List.map_eq_cons_iff.1 h.symm
    rw [List.flatMap_cons, List.flatMap_cons, encodeBytes_of_encode hw.symm, ih hws.symm]

/-- A stream of words has six bytes per word. -/
theorem length_flatMap_bytesOfWord (ws : List Word) :
    (ws.flatMap bytesOfWord).length = 6 * ws.length := by
  induction ws with
  | nil => rfl
  | cons w ws ih =>
    rw [List.flatMap_cons, List.length_append, bytesOfWord_length, ih, List.length_cons]
    omega

end Sys2Proof
end

section
/-! The whole stream: fetching at word `k` of a stream of words gives word `k`, so the Assembler's stream is fetched back
(R3, R110, R112). -/

namespace Sys2Proof.Machine

@[simp] theorem fetchWord_nil (p : Nat) : fetchWord [] p = none := by
  rw [fetchWord, List.drop_nil]
  rfl

/-- The word at the head of a stream. -/
theorem fetchWord_bytesOfWord_append_zero (w : Word) (bs : List Byte) :
    fetchWord (bytesOfWord w ++ bs) 0 = some w := by
  rw [fetchWord, List.drop_zero, takeWord_bytesOfWord_append]

/-- Past the first word, a fetch is a fetch from the rest of the stream. -/
theorem fetchWord_bytesOfWord_append_add (w : Word) (bs : List Byte) (p : Nat) :
    fetchWord (bytesOfWord w ++ bs) (6 + p) = fetchWord bs p := by
  rw [fetchWord, ← bytesOfWord_length w, List.drop_length_add_append, fetchWord]

/-- In a stream of words, the fetch at offset `6k` gives word `k`, and nothing past the last word (R132, R136). -/
theorem fetchWord_flatMap_bytesOfWord (ws : List Word) (k : Nat) :
    fetchWord (ws.flatMap bytesOfWord) (6 * k) = ws[k]? := by
  induction ws generalizing k with
  | nil => simp
  | cons w ws ih =>
    rw [List.flatMap_cons]
    cases k with
    | zero => exact fetchWord_bytesOfWord_append_zero w _
    | succ k =>
      rw [show 6 * (k + 1) = 6 + 6 * k by omega, fetchWord_bytesOfWord_append_add, ih,
        List.getElem?_cons_succ]

/-- A call succeeds exactly on well-formed records, with the bytes and the trace of the instructions they name (R102). -/
theorem assemble_ok_iff {o : Bool} {rs : List SourceRecord} {a : Assembly} :
    assemble o rs = .ok a ↔ ∃ is, List.Forall₂ RecordNames rs is ∧
      a = ⟨is.flatMap encodeBytes, if o then is.flatMap traceOf else []⟩ := by
  simp only [← instrsOfRecords_ok_iff, assemble]
  cases instrsOfRecords rs with
  | error e => simp
  | ok is => simp [eq_comm]

/-- The instructions that records name are among the four (R112). -/
theorem isCore_of_forall₂ {rs : List SourceRecord} {is : List Instr}
    (h : List.Forall₂ RecordNames rs is) : ∀ i ∈ is, i.isCore = true := by
  induction h with
  | nil => simp
  | cons hr _ ih => exact List.forall_mem_cons.2 ⟨hr.isCore, ih⟩

/-- The `k`-th record names the `k`-th instruction. -/
theorem exists_named_of_forall₂ {rs : List SourceRecord} {is : List Instr}
    (h : List.Forall₂ RecordNames rs is) {k : Nat} {r : SourceRecord} (hr : rs[k]? = some r) :
    ∃ i, is[k]? = some i ∧ RecordNames r i := by
  obtain ⟨hk, rfl⟩ := List.getElem?_eq_some_iff.1 hr
  have hk' : k < is.length := h.length_eq ▸ hk
  exact ⟨is[k], List.getElem?_eq_getElem hk', h.get hk hk'⟩

/-- The `k`-th word encodes the `k`-th instruction. -/
theorem exists_encoded_of_map_eq {is : List Instr} {ws : List Word}
    (h : is.map encode = ws.map some) {k : Nat} {i : Instr} (hi : is[k]? = some i) :
    ∃ w, ws[k]? = some w ∧ encode i = some w := by
  have hk : some (encode i) = ws[k]?.map some := by
    rw [← List.getElem?_map, ← h, List.getElem?_map, hi, Option.map_some]
  obtain ⟨w, hw, hwi⟩ := Option.map_eq_some_iff.1 hk.symm
  exact ⟨w, hw, hwi.symm⟩

/-- Settles O45: the Assembler's bytes are a stream of encoded words, a fetch at `6k` gives the `k`-th of them, and decoding
undoes encoding up to the mask widths. -/
theorem assembledStreamIsFetchedBack : Obligations.AssembledStreamIsFetchedBack := by
  intro o rs a ha
  obtain ⟨is, hnames, rfl⟩ := assemble_ok_iff.1 ha
  obtain ⟨ws, hws⟩ := exists_words_of_isCore (isCore_of_forall₂ hnames)
  simp only [flatMap_encodeBytes hws]
  refine ⟨?_, fun k r hr => ?_⟩
  · rw [length_flatMap_bytesOfWord, Nat.mul_mod_right]
  · obtain ⟨i, hi, hri⟩ := exists_named_of_forall₂ hnames hr
    obtain ⟨w, hw, hiw⟩ := exists_encoded_of_map_eq hws hi
    exact ⟨i, w, hri, (fetchWord_flatMap_bytesOfWord ws k).trans hw, decode_of_encode hiw⟩

end Sys2Proof.Machine
end

section
/-! What every word keeps of the invariant of a run, and what the normal end keeps of it (R22, R25, R133, R175, R192). -/

namespace Sys2Proof.Machine

/-! ### The fatal report -/

theorem State.fatalReported_congr {s t : State} (h : t.reports = s.reports) :
    t.fatalReported ↔ s.fatalReported := by
  rw [State.fatalReported, State.fatalReported, h]

/-- A fault taken is the fatal report exactly when its cause is division by zero (R188). -/
theorem State.fatalReported_takeFault (s : State) (c : Cause) :
    (s.takeFault c).fatalReported ↔ s.fatalReported ∨ c = .divisionByZero := by
  simp [State.fatalReported, or_and_right, exists_or]

/-- The snapshot's loop reports no cause but an address out of bounds (R177). -/
theorem cause_of_mem_snapshotLoop {m : Memory} {a n : Nat} {r : Report}
    (h : r ∈ (snapshotLoop m a n).2) : r.cause = .invalidMemoryAddress := by
  induction n generalizing a with
  | zero => cases h
  | succ n ih =>
    rw [snapshotLoop] at h
    split at h
    · rcases List.mem_cons.1 h with rfl | h
      · rfl
      · exact ih h
    · exact ih h

/-- The snapshot makes no fatal report (R178). -/
theorem State.fatalReported_finish (s : State) : s.finish.fatalReported ↔ s.fatalReported := by
  have hnone : ∀ r ∈ (snapshot s.mem s.first s.last).2, r.cause ≠ .divisionByZero := by
    intro r hr
    rw [cause_of_mem_snapshotLoop hr]
    nofun
  simp only [State.fatalReported, State.finish_reports, List.mem_append, or_and_right, exists_or]
  exact or_iff_left fun ⟨r, hr, hc⟩ => hnone r hr hc

/-! ### One word -/

/-- Every word advances `pc` by 6 (R136). -/
theorem Effect.pc_eq {s t : State} (h : Effect s t) : t.pc = s.pc + 6 := by
  cases h <;> rfl

/-- No word changes the inputs of the run or its result. -/
theorem Effect.sameInputs {s t : State} (h : Effect s t) : SameInputs s t := by
  cases h <;> exact ⟨rfl, rfl, rfl, rfl⟩

/-- Every word keeps Memory canonical (R22). -/
theorem Effect.memWf {s t : State} (h : Effect s t) (hs : s.mem.wf = true) : t.mem.wf = true := by
  cases h with
  | fault | idle | reg => exact hs
  | cell a v ha => exact Memory.wf_write hs v ha

/-- A word leaves the run state and whether the fatal report is there, or it makes that report and halts (R192). -/
theorem Effect.runState_or_halted {s t : State} (h : Effect s t) :
    (t.runState = s.runState ∧ (t.fatalReported ↔ s.fatalReported)) ∨
    (t.runState = .haltedFault ∧ t.fatalReported) := by
  cases h with
  | fault c =>
    have hrep := s.fatalReported_takeFault c
    cases c with
    | invalidRegisterIndex | invalidMemoryAddress =>
      exact .inl ⟨rfl, hrep.trans (or_iff_left nofun)⟩
    | divisionByZero => exact .inr ⟨rfl, hrep.2 (.inr rfl)⟩
  | idle | reg | cell => exact .inl ⟨rfl, State.fatalReported_congr rfl⟩

/-! ### The invariant -/

/-- A running machine has no result yet (R175). -/
theorem State.Inv.result_of_running {s : State} (hs : s.Inv) (hr : s.runState = .running) :
    s.result = none := by
  rw [← Option.not_isSome_iff_eq_none, hs.resultIffNormal, hr]
  nofun

/-- A running machine has reported no division by zero (R192). -/
theorem State.Inv.not_fatalReported_of_running {s : State} (hs : s.Inv)
    (hr : s.runState = .running) : ¬ s.fatalReported := by
  rw [hs.haltedIffFatal, hr]
  nofun

/-- A running machine that executes a whole word keeps the invariant. -/
theorem Effect.inv {s t : State} (h : Effect s t) (hs : s.Inv) (hr : s.runState = .running)
    (hle : s.pc + 6 ≤ s.prog.length) : t.Inv := by
  obtain ⟨hprog, -, -, hresult⟩ := h.sameInputs
  have hpc := h.pc_eq
  have hnone : t.result = none := hresult.trans (hs.result_of_running hr)
  have hrun : (t.runState = .running ∨ t.runState = .haltedFault) ∧
      (t.fatalReported ↔ t.runState = .haltedFault) := by
    rcases h.runState_or_halted with ⟨hst, hfatal⟩ | ⟨hst, hfatal⟩
    · have hno := hs.not_fatalReported_of_running hr
      simp [hst, hr, hfatal, hno]
    · simp [hst, hfatal]
  obtain ⟨hstate, hfatal⟩ := hrun
  have hready : t.runState ≠ .ready := by rcases hstate with hst | hst <;> rw [hst] <;> nofun
  have hnormal : t.runState ≠ .haltedNormal := by rcases hstate with hst | hst <;> rw [hst] <;> nofun
  exact {
    memWf := h.memWf hs.memWf
    wholeWords := hprog ▸ hs.wholeWords
    pcAligned := by rw [hpc, Nat.add_mod_right, hs.pcAligned]
    pcInside := by rw [hpc, hprog]; exact hle
    readyFresh := fun hst => absurd hst hready
    endsAtEnd := fun hst => absurd hst hnormal
    resultIffNormal := by simp [hnone, hnormal]
    haltedIffFatal := hfatal }

/-- The normal end of a running machine at the end of its stream keeps the invariant (R133). -/
theorem State.Inv.finish {s : State} (hs : s.Inv) (hr : s.runState = .running)
    (hend : s.pc = s.prog.length) : s.finish.Inv where
  memWf := hs.memWf
  wholeWords := hs.wholeWords
  pcAligned := hs.pcAligned
  pcInside := hs.pcInside
  readyFresh := nofun
  endsAtEnd := fun _ => hend
  resultIffNormal := by simp
  haltedIffFatal := by
    simp [s.fatalReported_finish, hs.not_fatalReported_of_running hr]

/-- Settles O32, by the three things a step can do: stay, end the run normally, or execute one word. -/
theorem stepKeepsInv : Obligations.StepKeepsInv := by
  intro s t hs hstep
  rcases step_cases hstep with ⟨-, rfl⟩ | ⟨hr, hend, rfl⟩ | ⟨hr, -, w, hw, hexec⟩
  · exact hs
  · exact hs.finish hr hend
  · exact (effect_of_exec hexec).inv hs hr (le_of_fetchWord hw)

end Sys2Proof.Machine
end

section
/-! Two runs of one instruction: states that agree on what the instruction reads undergo the same effect (R21, R29, R30, R58). -/

namespace Sys2Proof.Machine

/-- From `s` to `t` and from `s'` to `t'` the same thing happened, and it writes only what the tables of the instruction
list (R21, R58). -/
inductive SameEffect (i : Instr) (s s' : State) : State → State → Prop where
  /-- The same fault was taken. -/
  | fault (c : Cause) : SameEffect i s s' (s.takeFault c) (s'.takeFault c)
  /-- Nothing but the advance. -/
  | idle : SameEffect i s s' s.advance s'.advance
  /-- The same value was written to a register listed as written. -/
  | reg (r : Nat) (v : CellVal) (hr : r < 32) (hw : r ∈ i.regsWritten) :
    SameEffect i s s' (s.writeReg r v).advance (s'.writeReg r v).advance
  /-- The same value was written to a cell listed as written. -/
  | cell (a : Nat) (v : CellVal) (ha : a < 64) (hw : a ∈ i.cellsWritten) :
    SameEffect i s s' (s.writeMem a v).advance (s'.writeMem a v).advance

/-- What an instruction does depends only on the registers and cells it reads. -/
theorem exec_sameEffect (i : Instr) {s s' : State}
    (hregs : ∀ r ∈ i.regsRead, s'.readReg r = s.readReg r)
    (hcells : ∀ a ∈ i.cellsRead s, s'.readMem a = s.readMem a) :
    ∃ t t', exec i s = .next t ∧ exec i s' = .next t' ∧ SameEffect i s s' t t' := by
  cases i with
  | loadConst b c =>
    simp only [exec, execLoadConst]
    split_ifs with hb
    · exact ⟨_, _, rfl, rfl, .fault _⟩
    · exact ⟨_, _, rfl, rfl, .reg _ _ (Nat.not_le.1 hb) List.mem_cons_self⟩
  | readMem b c =>
    have hc := hcells c List.mem_cons_self
    simp only [exec, execReadMem, hc]
    split_ifs with hb
    · exact ⟨_, _, rfl, rfl, .fault _⟩
    · exact ⟨_, _, rfl, rfl, .fault _⟩
    · exact ⟨_, _, rfl, rfl, .reg _ _ (Nat.not_le.1 hb) List.mem_cons_self⟩
  | writeMem b c d =>
    have hd := hregs d List.mem_cons_self
    simp only [exec, execWriteMem, hd]
    split_ifs with ha
    · exact ⟨_, _, rfl, rfl, .fault _⟩
    · exact ⟨_, _, rfl, rfl, .fault _⟩
    · exact ⟨_, _, rfl, rfl, .cell _ _ (Nat.not_le.1 ha) List.mem_cons_self⟩
  | modMem b c d e =>
    have hd := hregs d List.mem_cons_self
    have he := hregs e (List.mem_cons_of_mem _ List.mem_cons_self)
    have hind : indirectAddr s' d = indirectAddr s d := congrArg BitVec.toNat hd
    have hm := hcells (indirectAddr s d) List.mem_cons_self
    simp only [exec, execModMem, he, hind, hm]
    split_ifs with ha
    · exact ⟨_, _, rfl, rfl, .fault _⟩
    · exact ⟨_, _, rfl, rfl, .fault _⟩
    · exact ⟨_, _, rfl, rfl, .fault _⟩
    · exact ⟨_, _, rfl, rfl, .fault _⟩
    · exact ⟨_, _, rfl, rfl, .fault _⟩
    · exact ⟨_, _, rfl, rfl, .cell _ _ (Nat.not_le.1 ha) List.mem_cons_self⟩
  | nop0 | nop1 | nop2 | nop3 | nop4 | nop5 | nop7 | nop8 | nop9 | nop11 | nop13 | nop15 =>
    exact ⟨_, _, rfl, rfl, .idle⟩

/-- With the first run given, the second answers with the same effect. -/
theorem exists_sameEffect_of_exec {i : Instr} {s s' t : State} (h : exec i s = .next t)
    (hregs : ∀ r ∈ i.regsRead, s'.readReg r = s.readReg r)
    (hcells : ∀ a ∈ i.cellsRead s, s'.readMem a = s.readMem a) :
    ∃ t', exec i s' = .next t' ∧ SameEffect i s s' t t' := by
  obtain ⟨u, t', hu, ht', heff⟩ := exec_sameEffect i hregs hcells
  rw [h] at hu
  cases hu
  exact ⟨t', ht', heff⟩

/-! ### The inputs of the run -/

/-- Settles O29: other inputs leave registers and Memory as they are, and every effect leaves the inputs as they are. -/
theorem executionNeverTouchesTheRunInputs : Obligations.ExecutionNeverTouchesTheRunInputs := by
  intro i s t prog' first' last' h
  obtain ⟨t', ht', heff⟩ := exists_sameEffect_of_exec
    (s' := { s with prog := prog', first := first', last := last' }) h (fun _ _ => rfl) (fun _ _ => rfl)
  rw [ht']
  cases heff <;> rfl

/-! ### The Register File -/

/-- A register that an instruction does not list as written reads as before (R21). -/
theorem readReg_of_not_mem_regsWritten {i : Instr} {s t : State} (h : exec i s = .next t) {r : Nat}
    (hr : r ∉ i.regsWritten) : t.readReg r = s.readReg r := by
  obtain ⟨_, _, heff⟩ := exists_sameEffect_of_exec (s' := s) h (fun _ _ => rfl) (fun _ _ => rfl)
  cases heff with
  | fault | idle | cell => rfl
  | reg q v _ hq =>
    exact s.readReg_writeReg_other v (ne_of_mem_of_not_mem hq hr).symm

/-- The same effect on two register files: each register is given the same value in both or left alone in both. -/
theorem SameEffect.readReg_eq_or_kept {i : Instr} {s s' t t' : State}
    (h : SameEffect i s s' t t') (r : Nat) :
    t'.readReg r = t.readReg r ∨ (t.readReg r = s.readReg r ∧ t'.readReg r = s'.readReg r) := by
  cases h with
  | fault | idle | cell => exact .inr ⟨rfl, rfl⟩
  | reg q v hq =>
    simp only [State.advance_readReg]
    by_cases hrq : r = q
    · subst hrq
      left
      rw [State.readReg_writeReg_same _ v hq, State.readReg_writeReg_same _ v hq]
    · exact .inr ⟨State.readReg_writeReg_other _ v hrq, State.readReg_writeReg_other _ v hrq⟩

/-- The same effect on states that differ only in their registers: all that is not a register stays equal. -/
theorem SameEffect.eq_except_regs {i : Instr} {s t t' : State} {regs' : Vector CellVal 32}
    (h : SameEffect i s { s with regs := regs' } t t') :
    t'.mem = t.mem ∧ t'.pc = t.pc ∧ t'.runState = t.runState ∧ t'.reports = t.reports := by
  cases h <;> exact ⟨rfl, rfl, rfl, rfl⟩

/-- A start that is not refused was made in `Ready`, with a stream of whole words, and sets only the run state and the
inputs (R130, R131, R142). -/
theorem State.eq_of_start {s t : State} {r : RunInput} (h : s.start r = .next t) :
    s.runState = .ready ∧ r.prog.length % 6 = 0 ∧
      t = { s with runState := .running, prog := r.prog, first := r.first, last := r.last } := by
  rw [State.start] at h
  split_ifs at h with hready hwords
  cases h
  exact ⟨not_not.1 hready, not_not.1 hwords, rfl⟩

/-- Settles O27: writes are bounded by `regsWritten`, the effect by `regsRead`, and neither the snapshot nor the start
touches the Register File. -/
theorem registerFileAccessIsAsTabled : Obligations.RegisterFileAccessIsAsTabled := by
  refine ⟨fun i s t h r hne => ?_, fun i s t regs' h hregs => ?_, fun _ _ => rfl, fun s t r h => ?_⟩
  · by_contra hr
    exact hne (readReg_of_not_mem_regsWritten h hr)
  · obtain ⟨t', ht', heff⟩ := exists_sameEffect_of_exec h hregs (fun _ _ => rfl)
    obtain ⟨hmem, hpc, hrun, hreports⟩ := heff.eq_except_regs
    exact ⟨t', ht', hmem, hpc, hrun, hreports, heff.readReg_eq_or_kept⟩
  · obtain ⟨-, -, rfl⟩ := State.eq_of_start h
    rfl

end Sys2Proof.Machine
end

section
/-! The bytes of a word in stream order: what six bytes make up, and what a fetch makes of the bytes at `pc` (R54, R132). -/

namespace Sys2Proof

/-- Byte `k` of a word as a field: bits `8k` to `8k+7` (R54). -/
def byteField (k : Nat) : BitField := ⟨8 * k, 8⟩

/-- A byte fits its field, so placing it is a shift. -/
theorem byteField_put (k : Nat) (b : Byte) : (byteField k).put b.toNat = b.toNat <<< (8 * k) :=
  BitField.put_eq_putUnguarded (byteField k) b.isLt

/-- A byte placed in one of the six fields stays below bit 48. -/
theorem byteField_put_lt {k : Nat} (hk : k < 6) (v : Nat) : (byteField k).put v < 2 ^ 48 :=
  Laws.EncodedOpcode.put_lt _ _ _ (by simp only [byteField]; omega)

section
variable (b0 b1 b2 b3 b4 b5 : Byte)

/-- The word of six bytes is their OR, each in its field; nothing is cut off. -/
theorem toNat_wordOfBytes_eq_or_put : (wordOfBytes b0 b1 b2 b3 b4 b5).toNat =
    (byteField 0).put b0.toNat ||| (byteField 1).put b1.toNat ||| (byteField 2).put b2.toNat |||
      (byteField 3).put b3.toNat ||| (byteField 4).put b4.toNat ||| (byteField 5).put b5.toNat := by
  refine Eq.trans ?_ (Nat.mod_eq_of_lt (b := 2 ^ 48) ?_)
  · simp only [byteField_put, Nat.mul_zero, Nat.shiftLeft_zero, Nat.reduceMul, wordOfBytes,
      BitVec.toNat_ofNat]
  · refine Nat.or_lt_two_pow (Nat.or_lt_two_pow (Nat.or_lt_two_pow (Nat.or_lt_two_pow
      (Nat.or_lt_two_pow ?_ ?_) ?_) ?_) ?_) ?_ <;> exact byteField_put_lt (by decide) _

/-- Field `k` of the word of six bytes is byte `k`. -/
theorem get_byteField_wordOfBytes {k : Nat} (hk : k < [b0, b1, b2, b3, b4, b5].length) :
    (byteField k).get (wordOfBytes b0 b1 b2 b3 b4 b5).toNat =
      [b0, b1, b2, b3, b4, b5][k].toNat := by
  have hmod (b : Byte) : b.toNat % 256 = b.toNat := Nat.mod_eq_of_lt b.isLt
  rw [toNat_wordOfBytes_eq_or_put]
  match k, hk with
  | 0, _ | 1, _ | 2, _ | 3, _ | 4, _ | 5, _ =>
    simp [BitField.get_or, BitField.get_put_same, BitField.get_put_below, BitField.get_put_above,
      byteField, hmod]

/-- The opcode stands in the low nibble of the first byte (R54, R81). -/
theorem wordOfBytes_and_opcodeMask :
    (wordOfBytes b0 b1 b2 b3 b4 b5).toNat &&& 0xF = b0.toNat &&& 0xF := by
  have hbyte : (wordOfBytes b0 b1 b2 b3 b4 b5).toNat &&& 0xFF = b0.toNat :=
    get_byteField_wordOfBytes b0 b1 b2 b3 b4 b5 (k := 0) (Nat.succ_pos _)
  calc (wordOfBytes b0 b1 b2 b3 b4 b5).toNat &&& 0xF
      = ((wordOfBytes b0 b1 b2 b3 b4 b5).toNat &&& 0xFF) &&& 0xF :=
        (Nat.and_assoc _ 0xFF 0xF).symm
    _ = b0.toNat &&& 0xF := by rw [hbyte]

end

end Sys2Proof

namespace Sys2Proof.Machine

/-- A fetch makes the word of the six bytes at `pc`, in stream order (R54, R132). -/
theorem fetchWord_eq_wordOfBytes {prog : List Byte} {p : Nat} (h : p + 6 ≤ prog.length) :
    fetchWord prog p = some (wordOfBytes prog[p] prog[p + 1] prog[p + 2] prog[p + 3] prog[p + 4]
      prog[p + 5]) := by
  have hdrop : prog.drop p = prog[p] :: prog[p + 1] :: prog[p + 2] :: prog[p + 3] :: prog[p + 4] ::
      prog[p + 5] :: prog.drop (p + 6) := by
    simp only [List.getElem_cons_drop]
  rw [fetchWord, hdrop, takeWord]

/-- Byte `k` after `pc` is field `k` of the word fetched there. -/
theorem toNat_getElem_of_fetchWord {prog : List Byte} {p k : Nat} {w : Word}
    (hw : fetchWord prog p = some w) (h : p + 6 ≤ prog.length) (hk : k < 6) :
    prog[p + k].toNat = (byteField k).get w.toNat := by
  rw [fetchWord_eq_wordOfBytes h] at hw
  obtain rfl := Option.some.inj hw
  rw [get_byteField_wordOfBytes (hk := hk)]
  match k, hk with
  | 0, _ | 1, _ | 2, _ | 3, _ | 4, _ | 5, _ => rfl

/-- Settles O9: a fetch makes the word of the six bytes at `pc`, each of which is a field of it, and taking a word off a stream
undoes writing its bytes. -/
theorem wordsAreLittleEndian : Obligations.WordsAreLittleEndian := by
  refine ⟨fun prog p h => ?_, fun i w rest hw => ?_⟩
  · have hfetch := fetchWord_eq_wordOfBytes h
    refine ⟨_, hfetch, ?_, fun k => toNat_getElem_of_fetchWord hfetch h,
      wordOfBytes_and_opcodeMask ..⟩
    simp only [toNat_wordOfBytes_eq_or_put, byteField_put, Nat.mul_zero, Nat.shiftLeft_zero,
      Nat.reduceMul]
  · rw [encodeBytes_of_encode hw, takeWord_bytesOfWord_append]

end Sys2Proof.Machine
end

section
/-! Which cells an instruction reads and writes (R58), and a store followed by a load (R60, R66). -/

namespace Sys2Proof.Machine

/-- A cell that an instruction does not list as written reads as before (R58). -/
theorem readMem_of_not_mem_cellsWritten {i : Instr} {s t : State} (h : exec i s = .next t) {a : Nat}
    (ha : a ∉ i.cellsWritten) : t.readMem a = s.readMem a := by
  obtain ⟨_, _, heff⟩ := exists_sameEffect_of_exec (s' := s) h (fun _ _ => rfl) (fun _ _ => rfl)
  cases heff with
  | fault | idle | reg => rfl
  | cell x v _ hx =>
    exact s.readMem_writeMem_other v (ne_of_mem_of_not_mem hx ha).symm

/-- The same effect on two canonical memories: each cell is given the same value in both or left alone in both. -/
theorem SameEffect.readMem_eq_or_kept {i : Instr} {s s' t t' : State} (h : SameEffect i s s' t t')
    (hs : s.mem.wf = true) (hs' : s'.mem.wf = true) (a : Nat) :
    t'.readMem a = t.readMem a ∨ (t.readMem a = s.readMem a ∧ t'.readMem a = s'.readMem a) := by
  cases h with
  | fault | idle | reg => exact .inr ⟨rfl, rfl⟩
  | cell x v =>
    simp only [State.advance_readMem]
    by_cases hax : a = x
    · subst hax
      left
      rw [State.readMem_writeMem_same hs a v, State.readMem_writeMem_same hs' a v]
    · exact .inr ⟨State.readMem_writeMem_other _ v hax, State.readMem_writeMem_other _ v hax⟩

/-- The same effect on states that differ only in Memory: all that is not a cell stays equal. -/
theorem SameEffect.eq_except_mem {i : Instr} {s t t' : State} {mem' : Memory}
    (h : SameEffect i s { s with mem := mem' } t t') :
    t'.regs = t.regs ∧ t'.pc = t.pc ∧ t'.runState = t.runState ∧ t'.reports = t.reports := by
  cases h <;> exact ⟨rfl, rfl, rfl, rfl⟩

/-- Settles O28: writes are bounded by `cellsWritten`, the effect by `cellsRead`. -/
theorem memoryAccessIsAsTabled : Obligations.MemoryAccessIsAsTabled := by
  refine ⟨fun i s t h a hne => ?_, fun i s t mem' h hwf hwf' hcells => ?_⟩
  · by_contra ha
    exact hne (readMem_of_not_mem_cellsWritten h ha)
  · obtain ⟨t', ht', heff⟩ := exists_sameEffect_of_exec
      (s' := { s with mem := mem' }) h (fun _ _ => rfl) hcells
    obtain ⟨hregs, hpc, hrun, hreports⟩ := heff.eq_except_mem
    exact ⟨t', ht', hregs, hpc, hrun, hreports, heff.readMem_eq_or_kept hwf hwf'⟩

/-- WriteMem with its address and its register in range stores the register in the cell (R160). -/
theorem exec_writeMem_of_valid {b c d : Nat} (ha : c + b < 64) (hd : d < 32) (s : State) :
    exec (.writeMem b c d) s = .next (s.writeMem (c + b) (s.readReg d)).advance :=
  (if_neg (Nat.not_le.2 ha)).trans (if_neg (Nat.not_le.2 hd))

/-- ReadMem with its register and its address in range loads the cell into the register (R151). -/
theorem exec_readMem_of_valid {b c : Nat} (hb : b < 32) (hc : c < 64) (s : State) :
    exec (.readMem b c) s = .next (s.writeReg b (s.readMem c)).advance :=
  (if_neg (Nat.not_le.2 hb)).trans (if_neg (Nat.not_le.2 hc))

/-- Settles O30: the load finds what the store left in the cell, and leaves it there. -/
theorem storedValueIsLoadedBack : Obligations.StoredValueIsLoadedBack := by
  intro s b c d r hwf ha hd hr
  have hcell : (s.writeMem (c + b) (s.readReg d)).advance.readMem (c + b) = s.readReg d :=
    State.readMem_writeMem_same hwf (c + b) (s.readReg d)
  refine ⟨_, _, exec_writeMem_of_valid ha hd s, exec_readMem_of_valid hr ha _, ?_, hcell, rfl⟩
  exact (State.readReg_writeReg_same _ _ hr).trans hcell

end Sys2Proof.Machine
end

section
/-! Decoding the word of either encoder: the masked one (R92, R96), and the source's unguarded one, whose wide operands run into
the fields above (R94, R95). -/

namespace Sys2Proof

/-! ### Operands that fit their fields -/

@[simp] theorem Instr.wf_loadConst (b c : Nat) :
    (Instr.loadConst b c).wf = true ↔ b < 2 ^ 5 ∧ c < 2 ^ 20 := by
  simp [Instr.wf]

@[simp] theorem Instr.wf_readMem (b c : Nat) :
    (Instr.readMem b c).wf = true ↔ b < 2 ^ 5 ∧ c < 2 ^ 20 := by
  simp [Instr.wf]

@[simp] theorem Instr.wf_writeMem (b c d : Nat) :
    (Instr.writeMem b c d).wf = true ↔ b < 2 ^ 6 ∧ c < 2 ^ 5 ∧ d < 2 ^ 5 := by
  simp [Instr.wf, and_assoc]

@[simp] theorem Instr.wf_modMem (b c d e : Nat) :
    (Instr.modMem b c d e).wf = true ↔ b < 2 ^ 6 ∧ c < 2 ^ 5 ∧ d < 2 ^ 5 ∧ e < 2 ^ 5 := by
  simp [Instr.wf, and_assoc]

/-- Reducing operands that fit changes nothing (R96). -/
theorem Instr.reduced_of_wf {i : Instr} (h : i.wf = true) : i.reduced = i := by
  cases i with
  | loadConst b c =>
    obtain ⟨hb, hc⟩ := (Instr.wf_loadConst b c).1 h
    rw [Instr.reduced, Nat.mod_eq_of_lt hb, Nat.mod_eq_of_lt hc]
  | readMem b c =>
    obtain ⟨hb, hc⟩ := (Instr.wf_readMem b c).1 h
    rw [Instr.reduced, Nat.mod_eq_of_lt hb, Nat.mod_eq_of_lt hc]
  | writeMem b c d =>
    obtain ⟨hb, hc, hd⟩ := (Instr.wf_writeMem b c d).1 h
    rw [Instr.reduced, Nat.mod_eq_of_lt hb, Nat.mod_eq_of_lt hc, Nat.mod_eq_of_lt hd]
  | modMem b c d e =>
    obtain ⟨hb, hc, hd, he⟩ := (Instr.wf_modMem b c d e).1 h
    rw [Instr.reduced, Nat.mod_eq_of_lt hb, Nat.mod_eq_of_lt hc, Nat.mod_eq_of_lt hd,
      Nat.mod_eq_of_lt he]
  | _ => rfl

/-- On operands that fit, the two encoders build the same value: no mask cuts anything off. -/
theorem encodeUnguardedNat_of_wf {i : Instr} (h : i.wf = true) :
    encodeUnguardedNat i = encodeNat i := by
  cases i with
  | loadConst b c =>
    obtain ⟨hb, hc⟩ := (Instr.wf_loadConst b c).1 h
    rw [encodeNat, fieldRcB.put_eq_putUnguarded hb, fieldRcC.put_eq_putUnguarded hc,
      encodeUnguardedNat]
  | readMem b c =>
    obtain ⟨hb, hc⟩ := (Instr.wf_readMem b c).1 h
    rw [encodeNat, fieldRcB.put_eq_putUnguarded hb, fieldRcC.put_eq_putUnguarded hc,
      encodeUnguardedNat]
  | writeMem b c d =>
    obtain ⟨hb, hc, hd⟩ := (Instr.wf_writeMem b c d).1 h
    rw [encodeNat, fieldWB.put_eq_putUnguarded hb, fieldWC.put_eq_putUnguarded hc,
      fieldWD.put_eq_putUnguarded hd, encodeUnguardedNat]
  | modMem b c d e =>
    obtain ⟨hb, hc, hd, he⟩ := (Instr.wf_modMem b c d e).1 h
    rw [encodeNat, fieldMB.put_eq_putUnguarded hb, fieldMC.put_eq_putUnguarded hc,
      fieldMD.put_eq_putUnguarded hd, fieldME.put_eq_putUnguarded he, encodeUnguardedNat]
  | _ => rfl

/-! ### The unguarded encoder -/

/-- The unguarded encoder gives a word exactly where its value fits one (R94). -/
theorem encodeUnguarded_eq_some_iff {i : Instr} {w : Word} :
    encodeUnguarded i = some w ↔
      ∃ n, encodeUnguardedNat i = some n ∧ n < 2 ^ 48 ∧ BitVec.ofNat 48 n = w := by
  rw [encodeUnguarded]
  cases encodeUnguardedNat i with
  | none => simp
  | some n => simp

/-- On operands that fit, the two encoders give the same word (R94). -/
theorem encodeUnguarded_of_wf {i : Instr} {w : Word} (h : i.wf = true) (hw : encode i = some w) :
    encodeUnguarded i = some w := by
  obtain ⟨n, hn, hnw⟩ := Option.map_eq_some_iff.1 hw
  obtain ⟨-, hlt⟩ := encodedOpcode i n hn
  exact encodeUnguarded_eq_some_iff.2
    ⟨n, (encodeUnguardedNat_of_wf h).trans hn, hlt.trans (by decide), hnw⟩

/-- Settles O5: the masked word decodes to the reduced instruction, which is the instruction itself where the operands
fit; there the unguarded encoder gives the same word. -/
theorem decodeUndoesEncode : Obligations.DecodeUndoesEncode := by
  intro i hi
  obtain ⟨w, hw⟩ := exists_encode_of_isCore hi
  have hdecode : i.wf = true → decode w = i := fun hwf =>
    (decode_of_encode hw).trans (Instr.reduced_of_wf hwf)
  exact ⟨⟨w, hw, decode_of_encode hw⟩, fun hwf => ⟨w, hw, hdecode hwf⟩,
    fun hwf => ⟨w, encodeUnguarded_of_wf hwf hw, hdecode hwf⟩⟩

/-- An unguarded operand placed at bit 4 or above leaves the opcode as it is. -/
theorem opcodeField_get_or_putUnguarded (f : BitField) (n v : Nat) (h : 4 ≤ f.offset) :
    opcodeField.get (n ||| f.putUnguarded v) = opcodeField.get n := by
  rw [BitField.get_or, BitField.get_putUnguarded_above opcodeField f v h, Nat.or_zero]

/-- The unguarded value has the instruction's opcode, however wide its operands (R95). -/
theorem opcodeField_get_of_encodeUnguardedNat {i : Instr} {n : Nat}
    (h : encodeUnguardedNat i = some n) : opcodeField.get n = i.opcode := by
  cases i with
  | loadConst | readMem | writeMem | modMem =>
    obtain rfl := Option.some.inj h
    simp (disch := decide) only [opcodeField_get_or_putUnguarded]
    rfl
  | _ => cases h

/-- The word of the unguarded encoder decodes by the instruction's own format. -/
theorem decode_of_encodeUnguarded {i : Instr} {w : Word} (h : encodeUnguarded i = some w) :
    ∃ n, encodeUnguardedNat i = some n ∧ decode w = decodeFields i.opcode n := by
  obtain ⟨n, hn, hlt, rfl⟩ := encodeUnguarded_eq_some_iff.1 h
  exact ⟨n, hn, by rw [decode_ofNat hlt, opcodeField_get_of_encodeUnguardedNat hn]⟩

section
variable (op b c d e : Nat) (hop : op < 16)
include hop

/-- Format RC (R82): the fields of an unguarded value. `C` starts 6 bits above `B`. -/
theorem get_encodedUnguarded_rc :
    fieldRcB.get (op ||| fieldRcB.putUnguarded b ||| fieldRcC.putUnguarded c) = b % 2 ^ 5 ∧
    fieldRcC.get (op ||| fieldRcB.putUnguarded b ||| fieldRcC.putUnguarded c) =
      (c ||| b >>> 6) % 2 ^ 20 := by
  rw [Nat.or_mod_two_pow, Nat.or_comm (c % _)]
  simp [BitField.get_or, BitField.get_opcode, BitField.get_putUnguarded_below,
    BitField.get_putUnguarded_above, hop, fieldRcB, fieldRcC]

/-- Format W (R83): the fields of an unguarded value. `C` starts 7 bits above `B`, and `D` 6 above `C`. -/
theorem get_encodedUnguarded_w :
    fieldWB.get (op ||| fieldWB.putUnguarded b ||| fieldWC.putUnguarded c |||
      fieldWD.putUnguarded d) = b % 2 ^ 6 ∧
    fieldWC.get (op ||| fieldWB.putUnguarded b ||| fieldWC.putUnguarded c |||
      fieldWD.putUnguarded d) = (c ||| b >>> 7) % 2 ^ 5 ∧
    fieldWD.get (op ||| fieldWB.putUnguarded b ||| fieldWC.putUnguarded c |||
      fieldWD.putUnguarded d) = (d ||| c >>> 6 ||| b >>> 13) % 2 ^ 5 := by
  simp only [Nat.or_mod_two_pow]
  simp [BitField.get_or, BitField.get_opcode, BitField.get_putUnguarded_below,
    BitField.get_putUnguarded_above, hop, fieldWB, fieldWC, fieldWD, Nat.or_comm, Nat.or_left_comm]

/-- Format M (R84): the fields of an unguarded value. `C` starts 7 bits above `B`, `D` 6 above `C` and `E` 6 above `D`. -/
theorem get_encodedUnguarded_m :
    fieldMB.get (op ||| fieldMB.putUnguarded b ||| fieldMC.putUnguarded c |||
      fieldMD.putUnguarded d ||| fieldME.putUnguarded e) = b % 2 ^ 6 ∧
    fieldMC.get (op ||| fieldMB.putUnguarded b ||| fieldMC.putUnguarded c |||
      fieldMD.putUnguarded d ||| fieldME.putUnguarded e) = (c ||| b >>> 7) % 2 ^ 5 ∧
    fieldMD.get (op ||| fieldMB.putUnguarded b ||| fieldMC.putUnguarded c |||
      fieldMD.putUnguarded d ||| fieldME.putUnguarded e) =
      (d ||| c >>> 6 ||| b >>> 13) % 2 ^ 5 ∧
    fieldME.get (op ||| fieldMB.putUnguarded b ||| fieldMC.putUnguarded c |||
      fieldMD.putUnguarded d ||| fieldME.putUnguarded e) =
      (e ||| d >>> 6 ||| c >>> 12 ||| b >>> 19) % 2 ^ 5 := by
  simp only [Nat.or_mod_two_pow]
  simp [BitField.get_or, BitField.get_opcode, BitField.get_putUnguarded_below,
    BitField.get_putUnguarded_above, hop, fieldMB, fieldMC, fieldMD, fieldME, Nat.or_comm,
    Nat.or_left_comm]

end

/-- Settles O8: the opcode stands, and each field reads the OR of what the operands at or below it place there. -/
theorem unguardedOperandsOverflowUpward : Obligations.UnguardedOperandsOverflowUpward := by
  refine ⟨fun b c w h => ?_, fun b c w h => ?_, fun b c d w h => ?_, fun b c d e w h => ?_⟩
  · obtain ⟨_, ⟨rfl⟩, hw⟩ := decode_of_encodeUnguarded h
    obtain ⟨hb, hc⟩ := get_encodedUnguarded_rc 6 b c (by decide)
    rw [hw, Instr.opcode, decodeFields, hb, hc]
  · obtain ⟨_, ⟨rfl⟩, hw⟩ := decode_of_encodeUnguarded h
    obtain ⟨hb, hc⟩ := get_encodedUnguarded_rc 10 b c (by decide)
    rw [hw, Instr.opcode, decodeFields, hb, hc]
  · obtain ⟨_, ⟨rfl⟩, hw⟩ := decode_of_encodeUnguarded h
    obtain ⟨hb, hc, hd⟩ := get_encodedUnguarded_w 12 b c d (by decide)
    rw [hw, Instr.opcode, decodeFields, hb, hc, hd]
  · obtain ⟨_, ⟨rfl⟩, hw⟩ := decode_of_encodeUnguarded h
    obtain ⟨hb, hc, hd, he⟩ := get_encodedUnguarded_m 14 b c d e (by decide)
    rw [hw, Instr.opcode, decodeFields, hb, hc, hd, he]

end Sys2Proof
end

section
/-! What the decoder reads of a word: the opcode and the masked fields, and no other bit (R89, R90, R91, R93). -/

namespace Sys2Proof

/-! ### Fields and bit masks -/

/-- A field of an AND is the AND of the fields. -/
theorem BitField.get_and (f : BitField) (a b : Nat) : f.get (a &&& b) = f.get a &&& f.get b := by
  refine Nat.eq_of_testBit_eq fun i => ?_
  simp only [BitField.testBit_get, Nat.testBit_and]
  cases decide (i < f.width) <;> simp

/-- A field reads through every mask that keeps its own bits. -/
theorem BitField.get_and_of_get_eq_mask (f : BitField) {m : Nat} (h : f.get m = f.mask) (n : Nat) :
    f.get (n &&& m) = f.get n := by
  rw [BitField.get_and, h, BitField.get, Nat.and_assoc, Nat.and_self]

/-- A field read and put back is the word with every other bit cleared. -/
theorem BitField.put_get (f : BitField) (n : Nat) :
    f.put (f.get n) = n &&& f.mask <<< f.offset := by
  refine Nat.eq_of_testBit_eq fun i => ?_
  simp only [BitField.testBit_put, BitField.testBit_get, Nat.testBit_and, Nat.testBit_shiftLeft,
    BitField.mask, Nat.testBit_two_pow_sub_one]
  by_cases hle : f.offset ≤ i
  · simp [hle, Nat.add_sub_cancel' hle, Bool.and_comm]
  · simp [hle]

/-- A masked operand stands within every mask that keeps its field's bits. -/
theorem BitField.put_and_of_get_eq_mask (f : BitField) {m : Nat} (h : f.get m = f.mask) (v : Nat) :
    f.put v &&& m = f.put v := by
  refine Nat.eq_of_testBit_eq fun i => ?_
  have hm : (f.get m).testBit (i - f.offset) = decide (i - f.offset < f.width) := by
    rw [h, BitField.mask, Nat.testBit_two_pow_sub_one]
  rw [BitField.testBit_get] at hm
  rw [Nat.testBit_and, BitField.testBit_put]
  by_cases hle : f.offset ≤ i
  · by_cases hlt : i - f.offset < f.width
    · have hbit : m.testBit i = true := by simpa [hlt, Nat.add_sub_cancel' hle] using hm
      simp [hbit]
    · simp [hlt]
  · simp [hle]

/-! ### Decoding by opcode -/

/-- The decoder reads the opcode from the low four bits (R89). -/
theorem decode_eq_decodeFields (w : Word) : decode w = decodeFields (w.toNat &&& 0xF) w.toNat :=
  rfl

/-- The four instructions are those of opcodes 6, 10, 12 and 14 (R99). -/
theorem Instr.isCore_eq_mem_opcode (i : Instr) : i.isCore = decide (i.opcode ∈ [6, 10, 12, 14]) := by
  cases i <;> rfl

/-- The decoded instruction is the one of the opcode dispatched on. -/
theorem opcode_decodeFields {op : Nat} (h : op < 16) (n : Nat) : (decodeFields op n).opcode = op := by
  interval_cases op <;> rfl

/-- The decoded instruction has the word's opcode (R89). -/
theorem opcode_decode (w : Word) : (decode w).opcode = w.toNat &&& 0xF :=
  opcode_decodeFields (Nat.and_lt_two_pow (n := 4) _ (by decide)) _

/-- Every field read fits its mask (R90). -/
theorem wf_decodeFields (op n : Nat) : (decodeFields op n).wf = true := by
  unfold decodeFields
  split
  case h_7 | h_11 =>
    simp only [Instr.wf_loadConst, Instr.wf_readMem]
    exact ⟨fieldRcB.get_lt n, fieldRcC.get_lt n⟩
  case h_13 => exact (Instr.wf_writeMem ..).2 ⟨fieldWB.get_lt n, fieldWC.get_lt n, fieldWD.get_lt n⟩
  case h_15 =>
    exact (Instr.wf_modMem ..).2
      ⟨fieldMB.get_lt n, fieldMC.get_lt n, fieldMD.get_lt n, fieldME.get_lt n⟩
  all_goals rfl

/-- Settles O1: on each of the four opcodes the decoder is its field reads; every other opcode gives an instruction of that
opcode, which is none of the four. -/
theorem decodeReadsOpcodeAndMaskedFields : Obligations.DecodeReadsOpcodeAndMaskedFields := by
  refine ⟨fun w h => ?_, fun w h => ?_, fun w h => ?_, fun w h => ?_, fun w h => ?_, by decide⟩
  iterate 4
    · rw [decode_eq_decodeFields, h]
      rfl
  · refine ⟨?_, opcode_decode w⟩
    rw [Instr.isCore_eq_mem_opcode, opcode_decode, decide_eq_false h]

/-- Settles O4: every field read fits its mask, and the opcode is the word's low nibble. -/
theorem everyWordDecodesWellFormed : Obligations.EveryWordDecodesWellFormed := fun w =>
  ⟨wf_decodeFields _ _, (opcode_decode w).trans (Nat.and_two_pow_sub_one_eq_mod w.toNat 4)⟩

/-! ### The bits the decoder reads -/

/-- The decoded bits of every opcode hold the opcode's own four. -/
theorem and_decodedBits_and_opcodeMask (n op : Nat) :
    (n &&& decodedBits op) &&& 0xF = n &&& 0xF := by
  have hmask : decodedBits op &&& 0xF = 0xF := by
    unfold decodedBits
    split <;> rfl
  rw [Nat.and_assoc, hmask]

/-- Clearing the slack and unused bits of the opcode's format changes no field read (R90). -/
theorem decodeFields_and_decodedBits (op n : Nat) :
    decodeFields op (n &&& decodedBits op) = decodeFields op n := by
  unfold decodeFields
  split
  case h_7 | h_11 =>
    rw [decodedBits, fieldRcB.get_and_of_get_eq_mask rfl, fieldRcC.get_and_of_get_eq_mask rfl]
  case h_13 =>
    rw [decodedBits, fieldWB.get_and_of_get_eq_mask rfl, fieldWC.get_and_of_get_eq_mask rfl,
      fieldWD.get_and_of_get_eq_mask rfl]
  case h_15 =>
    rw [decodedBits, fieldMB.get_and_of_get_eq_mask rfl, fieldMC.get_and_of_get_eq_mask rfl,
      fieldMD.get_and_of_get_eq_mask rfl, fieldME.get_and_of_get_eq_mask rfl]
  all_goals rfl

/-- Settles O3: the decoded bits hold the opcode, and the fields are read from them alone. -/
theorem ignoredBitsNeverReachTheDecoder : Obligations.IgnoredBitsNeverReachTheDecoder := by
  intro w v h
  have hop : w.toNat &&& 0xF = v.toNat &&& 0xF := by
    rw [← and_decodedBits_and_opcodeMask w.toNat, h, and_decodedBits_and_opcodeMask]
  rw [decode_eq_decodeFields, decode_eq_decodeFields, ← decodeFields_and_decodedBits, h, hop,
    decodeFields_and_decodedBits]

/-! ### Encoding (R91, R93) -/

/-- The encoder sets no bit outside the opcode and the masked fields (R93). -/
theorem and_decodedBits_of_encodeNat {i : Instr} {n : Nat} (h : encodeNat i = some n) :
    n &&& decodedBits i.opcode = n := by
  cases i with
  | loadConst | readMem =>
    obtain rfl := Option.some.inj h
    rw [Instr.opcode, decodedBits, Nat.and_or_distrib_right, Nat.and_or_distrib_right,
      fieldRcB.put_and_of_get_eq_mask rfl, fieldRcC.put_and_of_get_eq_mask rfl]
    rfl
  | writeMem =>
    obtain rfl := Option.some.inj h
    rw [Instr.opcode, decodedBits, Nat.and_or_distrib_right, Nat.and_or_distrib_right,
      Nat.and_or_distrib_right, fieldWB.put_and_of_get_eq_mask rfl,
      fieldWC.put_and_of_get_eq_mask rfl, fieldWD.put_and_of_get_eq_mask rfl]
    rfl
  | modMem =>
    obtain rfl := Option.some.inj h
    rw [Instr.opcode, decodedBits, Nat.and_or_distrib_right, Nat.and_or_distrib_right,
      Nat.and_or_distrib_right, Nat.and_or_distrib_right, fieldMB.put_and_of_get_eq_mask rfl,
      fieldMC.put_and_of_get_eq_mask rfl, fieldMD.put_and_of_get_eq_mask rfl,
      fieldME.put_and_of_get_eq_mask rfl]
    rfl
  | _ => cases h

/-- The word of an instruction has the value the encoder builds: nothing is cut off. -/
theorem encodeNat_of_encode {i : Instr} {w : Word} (h : encode i = some w) :
    encodeNat i = some w.toNat := by
  obtain ⟨n, hn, rfl⟩ := Option.map_eq_some_iff.1 h
  obtain ⟨-, hlt⟩ := encodedOpcode i n hn
  rw [hn, BitVec.toNat_ofNat, Nat.mod_eq_of_lt (hlt.trans (by decide))]

/-- The encoder takes no no-operation (R97). -/
theorem encode_of_not_isCore {i : Instr} (h : i.isCore = false) : encode i = none := by
  cases i with
  | loadConst | readMem | writeMem | modMem => cases h
  | _ => rfl

/-- Settles O6: the formulas are the encoder's own; the value it builds stays within the decoded bits. -/
theorem encoderSetsOnlyOpcodeAndMaskedFields :
    Obligations.EncoderSetsOnlyOpcodeAndMaskedFields :=
  ⟨fun _ _ => rfl, fun _ _ => rfl, fun _ _ _ => rfl, fun _ _ _ _ => rfl,
    fun _ => encode_of_not_isCore,
    fun _ _ h => and_decodedBits_of_encodeNat (encodeNat_of_encode h)⟩

section
variable {op n : Nat} (h : n &&& 0xF = op)
include h

/-- Format RC (R82): the opcode and the fields of a value, put back in place, are its decoded bits. -/
theorem or_put_get_rc :
    op ||| fieldRcB.put (fieldRcB.get n) ||| fieldRcC.put (fieldRcC.get n) = n &&& 0x3FFFFDFF := by
  simp only [← h, BitField.put_get, ← Nat.and_or_distrib_left]
  rfl

/-- Format W (R83): the opcode and the fields of a value, put back in place, are its decoded bits. -/
theorem or_put_get_w :
    op ||| fieldWB.put (fieldWB.get n) ||| fieldWC.put (fieldWC.get n) |||
      fieldWD.put (fieldWD.get n) = n &&& 0x3EFBFF := by
  simp only [← h, BitField.put_get, ← Nat.and_or_distrib_left]
  rfl

/-- Format M (R84): the opcode and the fields of a value, put back in place, are its decoded bits. -/
theorem or_put_get_m :
    op ||| fieldMB.put (fieldMB.get n) ||| fieldMC.put (fieldMC.get n) |||
      fieldMD.put (fieldMD.get n) ||| fieldME.put (fieldME.get n) = n &&& 0xFBEFBFF := by
  simp only [← h, BitField.put_get, ← Nat.and_or_distrib_left]
  rfl

end

/-- On the four opcodes, encoding the fields just read keeps the decoded bits and no other (R91). -/
theorem encodeNat_decodeFields {n : Nat} (h : n &&& 0xF ∈ [6, 10, 12, 14]) :
    encodeNat (decodeFields (n &&& 0xF) n) = some (n &&& decodedBits (n &&& 0xF)) := by
  simp only [List.mem_cons, List.not_mem_nil, or_false] at h
  rcases h with h | h | h | h <;> rw [h]
  · exact congrArg some (or_put_get_rc h)
  · exact congrArg some (or_put_get_rc h)
  · exact congrArg some (or_put_get_w h)
  · exact congrArg some (or_put_get_m h)

/-- Settles O7: encoding a decoded word keeps its decoded bits, and so gives it back exactly where it has no other. -/
theorem encodeAfterDecodeClearsIgnoredBits : Obligations.EncodeAfterDecodeClearsIgnoredBits := by
  intro w hcore
  rw [Instr.isCore_eq_mem_opcode, opcode_decode, decide_eq_true_iff] at hcore
  have hencode : encode (decode w) =
      some (BitVec.ofNat 48 (w.toNat &&& decodedBits (w.toNat &&& 0xF))) :=
    congrArg (Option.map (BitVec.ofNat 48)) (encodeNat_decodeFields hcore)
  have hlt : w.toNat &&& decodedBits (w.toNat &&& 0xF) < 2 ^ 48 := Nat.and_le_left.trans_lt w.isLt
  refine ⟨hencode, ?_⟩
  rw [hencode, Option.some.injEq, ← BitVec.toNat_inj, BitVec.toNat_ofNat, Nat.mod_eq_of_lt hlt]

end Sys2Proof
end

section
/-! The Assembler's bytes, its two errors and its trace (R101 to R107). -/

namespace Sys2Proof.Machine

/-! ### Bytes (R102) -/

/-- A call on well-formed records succeeds with the bytes and the trace of their instructions. -/
theorem assemble_of_forall₂ (o : Bool) {rs : List SourceRecord} {is : List Instr}
    (h : List.Forall₂ RecordNames rs is) :
    assemble o rs = .ok ⟨is.flatMap encodeBytes, if o then is.flatMap traceOf else []⟩ :=
  assemble_ok_iff.2 ⟨is, h, rfl⟩

/-- Where a call succeeds every record names an instruction. -/
theorem exists_named_of_assemble_ok {o : Bool} {rs : List SourceRecord} {a : Assembly}
    (h : assemble o rs = .ok a) {r : SourceRecord} (hr : r ∈ rs) : ∃ i, RecordNames r i := by
  obtain ⟨is, hnames, -⟩ := assemble_ok_iff.1 h
  obtain ⟨k, hk⟩ := List.mem_iff_getElem?.1 hr
  obtain ⟨i, -, hi⟩ := exists_named_of_forall₂ hnames hk
  exact ⟨i, hi⟩

/-- Settles O42: the bytes are those of the encoded words, one per record; a malformed record leaves no success. -/
theorem assembleConcatenatesEncodedWords : Obligations.AssembleConcatenatesEncodedWords := by
  refine ⟨fun o rs is hnames => ?_, fun o rs ⟨r, hr, hbad⟩ => ?_⟩
  · obtain ⟨ws, hws⟩ := exists_words_of_isCore (isCore_of_forall₂ hnames)
    have hbytes : is.flatMap encodeBytes = ws.flatMap bytesOfWord := flatMap_encodeBytes hws
    have hlen : ws.length = rs.length := by
      rw [hnames.length_eq, ← List.length_map (f := encode), hws, List.length_map]
    refine ⟨ws, hws, _, assemble_of_forall₂ o hnames, hbytes, ?_⟩
    rw [hbytes, length_flatMap_bytesOfWord, hlen]
  · cases h : assemble o rs with
    | error e => exact ⟨e, rfl⟩
    | ok a =>
      obtain ⟨i, hi⟩ := exists_named_of_assemble_ok h hr
      exact absurd hi (hbad i)

/-! ### Errors (R104, R105) -/

/-- The error of the first malformed record is the error of the call (log 17). -/
theorem instrsOfRecords_append_error {pre : List SourceRecord}
    (hpre : ∀ x ∈ pre, ∃ i, RecordNames x i) {r : SourceRecord} {e : AsmError}
    (hr : instrOfRecord r = .error e) (post : List SourceRecord) :
    instrsOfRecords (pre ++ r :: post) = .error e := by
  induction pre with
  | nil => rw [List.nil_append, instrsOfRecords, hr]
  | cons x pre ih =>
    obtain ⟨i, hi⟩ := hpre x List.mem_cons_self
    rw [List.cons_append, instrsOfRecords, (instrOfRecord_ok_iff x i).2 hi,
      ih fun y hy => hpre y (List.mem_cons_of_mem _ hy)]

theorem assemble_append_error (o : Bool) {pre : List SourceRecord}
    (hpre : ∀ x ∈ pre, ∃ i, RecordNames x i) {r : SourceRecord} {e : AsmError}
    (hr : instrOfRecord r = .error e) (post : List SourceRecord) :
    assemble o (pre ++ r :: post) = .error e := by
  rw [assemble, instrsOfRecords_append_error hpre hr]

/-- A record is refused for its mnemonic exactly when that is not one of the four (R104). -/
theorem instrOfRecord_unknownMnemonic_iff (r : SourceRecord) :
    instrOfRecord r = .error .unknownMnemonic ↔ r.mnemonic ∉ knownMnemonics := by
  simp only [knownMnemonics, List.mem_cons, List.not_mem_nil, or_false, not_or]
  constructor
  · intro h
    rw [instrOfRecord] at h
    split_ifs at h with h1 h2 h3 h4
    iterate 4 (split at h <;> cases h)
    exact ⟨h1, h2, h3, h4⟩
  · rintro ⟨h1, h2, h3, h4⟩
    rw [instrOfRecord, if_neg h1, if_neg h2, if_neg h3, if_neg h4]

/-- A malformed record with a known mnemonic is refused for its arguments (R104). -/
theorem instrOfRecord_wrongArity {r : SourceRecord} (hknown : r.mnemonic ∈ knownMnemonics)
    (hbad : ∀ i, ¬ RecordNames r i) : instrOfRecord r = .error .wrongArity := by
  cases h : instrOfRecord r with
  | ok i => exact absurd ((instrOfRecord_ok_iff r i).1 h) (hbad i)
  | error e =>
    cases e with
    | wrongArity => rfl
    | unknownMnemonic => exact absurd hknown ((instrOfRecord_unknownMnemonic_iff r).1 h)

/-- Settles O43: the first malformed record's own error is the call's. -/
theorem assemblerErrorsNameTheCause : Obligations.AssemblerErrorsNameTheCause :=
  fun o _ post r hpre =>
    ⟨fun hunknown =>
        assemble_append_error o hpre ((instrOfRecord_unknownMnemonic_iff r).2 hunknown) post,
      fun hknown hbad => assemble_append_error o hpre (instrOfRecord_wrongArity hknown hbad) post⟩

/-! ### The trace (R106, R107) -/

/-- The trace of a record's instruction is its opcode and the record's first two arguments. -/
theorem RecordNames.exists_traceOf {r : SourceRecord} {i : Instr} (h : RecordNames r i) :
    ∃ x y rest, r.args = x :: y :: rest ∧ traceOf i = [⟨i.opcode, x, y⟩] := by
  rcases h with ⟨b, c, rfl, rfl⟩ | ⟨b, c, rfl, rfl⟩ | ⟨b, c, d, rfl, rfl⟩ |
    ⟨b, c, d, e, rfl, rfl⟩ <;> exact ⟨b, c, _, rfl, rfl⟩

/-- One trace record per source record. -/
theorem length_flatMap_traceOf {rs : List SourceRecord} {is : List Instr}
    (h : List.Forall₂ RecordNames rs is) : (is.flatMap traceOf).length = rs.length := by
  induction h with
  | nil => rfl
  | cons hr _ ih =>
    obtain ⟨x, y, rest, -, htrace⟩ := hr.exists_traceOf
    rw [List.flatMap_cons, htrace, List.singleton_append, List.length_cons, ih, List.length_cons]

/-- The `k`-th trace record is that of the `k`-th instruction. -/
theorem getElem?_flatMap_traceOf {rs : List SourceRecord} {is : List Instr}
    (h : List.Forall₂ RecordNames rs is) {k : Nat} {r : SourceRecord} {i : Instr}
    (hr : rs[k]? = some r) (hi : is[k]? = some i) :
    ∃ x y rest, r.args = x :: y :: rest ∧ (is.flatMap traceOf)[k]? = some ⟨i.opcode, x, y⟩ := by
  induction h generalizing k with
  | nil => cases hr
  | cons hhead _ ih =>
    obtain ⟨x, y, rest, hargs, htrace⟩ := hhead.exists_traceOf
    rw [List.flatMap_cons, htrace, List.singleton_append]
    cases k with
    | zero =>
      cases hr
      cases hi
      exact ⟨x, y, rest, hargs, rfl⟩
    | succ k => exact ih hr hi

/-- Settles O44: the trace goes through the records one by one; the observer decides only whether it is kept. -/
theorem traceKeepsOpcodeAndTwoArguments : Obligations.TraceKeepsOpcodeAndTwoArguments := by
  refine ⟨fun rs is a hnames ha => ?_, fun rs a ha => ?_⟩
  · rw [assemble_of_forall₂ true hnames] at ha
    obtain rfl := Except.ok.inj ha
    exact ⟨length_flatMap_traceOf hnames, fun _ _ _ => getElem?_flatMap_traceOf hnames⟩
  · obtain ⟨is, hnames, rfl⟩ := assemble_ok_iff.1 ha
    exact assemble_of_forall₂ false hnames

end Sys2Proof.Machine
end

section
/-! Reset and the host's start: what a start does and when it is refused (R130, R131, R141, R142), and the invariant at the
beginning of a run. -/

namespace Sys2Proof.Machine

/-- In `Ready`, a stream of whole words starts the run (R130, R131). -/
theorem State.start_of_ready {s : State} {r : RunInput} (hs : s.runState = .ready)
    (hr : r.prog.length % 6 = 0) :
    s.start r = .next { s with runState := .running, prog := r.prog, first := r.first, last := r.last } :=
  (if_neg (not_not.2 hs)).trans (if_neg (not_not.2 hr))

/-- In `Ready`, a stream that is not whole words is refused (R142). -/
theorem State.start_of_not_wholeWords {s : State} {r : RunInput} (hs : s.runState = .ready)
    (hr : r.prog.length % 6 ≠ 0) : s.start r = .refused .programLengthNotMultipleOfSix :=
  (if_neg (not_not.2 hs)).trans (if_pos hr)

/-- A machine that is not `Ready` is not started (R141). -/
theorem State.start_of_not_ready {s : State} (r : RunInput) (hs : s.runState ≠ .ready) :
    s.start r = .refused .startNotReady :=
  if_pos hs

/-- Settles O11, by the three cases of the start. -/
theorem startHandsOverTheProgram : Obligations.StartHandsOverTheProgram :=
  ⟨fun _ _ hs hr => ⟨_, State.start_of_ready hs hr, rfl, rfl, rfl, rfl, fun _ => rfl, fun _ => rfl,
      rfl, rfl, rfl⟩,
    fun _ _ => State.start_of_not_wholeWords,
    fun _ => State.start_of_not_ready⟩

/-- The machine after reset meets the invariant (R34, R35). -/
theorem State.inv_reset : State.reset.Inv where
  memWf := Memory.wf_reset
  wholeWords := rfl
  pcAligned := rfl
  pcInside := Nat.le_refl 0
  readyFresh := fun _ => ⟨rfl, rfl, rfl, rfl⟩
  endsAtEnd := nofun
  resultIffNormal := ⟨nofun, nofun⟩
  haltedIffFatal := ⟨fun ⟨_, hr, _⟩ => (nomatch hr), nofun⟩

/-- Settles O33: the machine was `Ready`, so `pc` is 0 and there is neither a result nor a fatal report; the new stream is
whole words. -/
theorem startKeepsInv : Obligations.StartKeepsInv := by
  intro s t r hs hstart
  obtain ⟨hready, hwords, rfl⟩ := State.eq_of_start hstart
  obtain ⟨-, -, hpc, -⟩ := hs.readyFresh hready
  have hresult : ¬ s.result.isSome := by rw [hs.resultIffNormal, hready]; nofun
  have hfatal : ¬ s.fatalReported := by rw [hs.haltedIffFatal, hready]; nofun
  exact {
    memWf := hs.memWf
    wholeWords := hwords
    pcAligned := hs.pcAligned
    pcInside := hpc ▸ Nat.zero_le _
    readyFresh := nofun
    endsAtEnd := nofun
    resultIffNormal := iff_of_false hresult nofun
    haltedIffFatal := iff_of_false hfatal nofun }

end Sys2Proof.Machine
end

section
/-! The step of a running machine: the word at `pc` is executed, or the stream is exhausted and the run ends normally (R132,
R133, R134, R136). -/

namespace Sys2Proof.Machine

/-- A running machine executes the word fetched at `pc` (R134). -/
theorem step_of_fetchWord {s : State} {w : Word} (hr : s.runState = .running)
    (hw : fetchWord s.prog s.pc = some w) : step s = exec (decode w) s := by
  have hle := le_of_fetchWord hw
  rw [step_of_running hr, if_neg (by omega), hw]

/-- A running machine at the end of the stream ends the run normally (R133). -/
theorem step_of_end {s : State} (hr : s.runState = .running) (hend : s.pc = s.prog.length) :
    step s = .next s.finish := by
  rw [step_of_running hr, if_pos hend]

/-- Settles O12: six bytes at `pc` give a word, and the step executes it. -/
theorem stepRunsTheDecodedWord : Obligations.StepRunsTheDecodedWord := by
  intro s hr hle
  obtain ⟨w, hw⟩ := fetchWord_of_le hle
  exact ⟨w, hw, step_of_fetchWord hr hw⟩

/-! ### The placed word -/

/-- A table word that reads as `i` is a word that decodes to `i`. -/
theorem decode_of_decodeTableWord {nbits w : Nat} {i : Instr} (h : decodeTableWord nbits w = some i) :
    decode (BitVec.ofNat 48 (w % 2 ^ nbits)) = i := by
  have hbytes (v : Word) : decodeBytes (bytesOfWord v) = .ok (decode v, []) := by
    rw [← List.append_nil (bytesOfWord v), decodeBytes, takeWord_bytesOfWord_append]
  rw [decodeTableWord, hbytes] at h
  exact Option.some.inj h

/-- The word placed is the next one fetched (R132). -/
theorem State.fetchWord_placeWord (s : State) (w : Word) :
    fetchWord (s.placeWord w).prog (s.placeWord w).pc = some w := by
  have hlen : (s.prog.take s.pc ++ List.replicate (s.pc - s.prog.length) 0).length = s.pc := by
    simp only [List.length_append, List.length_take, List.length_replicate]
    omega
  rw [State.placeWord, fetchWord, List.append_assoc, List.drop_left' hlen, takeWord_bytesOfWord_append]

/-- Settles O13: the word placed is fetched, and it decodes as the table word does. -/
theorem placedWordIsRunNext : Obligations.PlacedWordIsRunNext := by
  intro s nbits w i hi
  refine ⟨?_, fun _ => rfl, fun _ => rfl, rfl, rfl⟩
  rw [← decode_of_decodeTableWord hi]
  exact step_of_fetchWord rfl (s.fetchWord_placeWord _)

/-! ### The advance -/

/-- Settles O14: each of the effects a word can have advances `pc` by 6 and leaves the inputs. -/
theorem everyBranchAdvancesPcBySix : Obligations.EveryBranchAdvancesPcBySix := by
  intro i s
  obtain ⟨t, ht, heff⟩ := exec_effect i s
  exact ⟨t, ht, heff.pc_eq, heff.sameInputs⟩

/-- A word that a running machine executes leaves it running or in `HaltedFault` (R192). -/
theorem Effect.runState_of_running {s t : State} (h : Effect s t) (hr : s.runState = .running) :
    t.runState = .running ∨ t.runState = .haltedFault :=
  h.runState_or_halted.imp (fun hs => hs.1.trans hr) And.left

/-- Settles O15: the end of the stream is a normal end, no executed word is one, and the empty program is at its end at
once. -/
theorem exhaustedStreamEndsTheRunNormally : Obligations.ExhaustedStreamEndsTheRunNormally := by
  refine ⟨fun s hr hend => ?_, fun s t hstep hs ht => ?_, fun first last => ?_⟩
  · exact ⟨_, step_of_end hr hend, rfl, rfl, fun _ => rfl, fun _ => rfl⟩
  · rcases step_cases hstep with ⟨-, rfl⟩ | ⟨hr, hend, -⟩ | ⟨hr, -, w, -, hexec⟩
    · exact absurd ht hs
    · exact ⟨hr, hend⟩
    · rcases (effect_of_exec hexec).runState_of_running hr with h | h <;> cases ht.symm.trans h
  · exact ⟨_, _, State.start_of_ready rfl rfl, step_of_end rfl rfl, rfl, State.reset_readReg,
      fun _ => rfl⟩

/-- A machine that meets the invariant and is not at the end of its stream has a whole word before it (R132). -/
theorem State.Inv.pc_add_six_le {s : State} (hs : s.Inv) (hne : s.pc ≠ s.prog.length) :
    s.pc + 6 ≤ s.prog.length := by
  have hwords := hs.wholeWords
  have haligned := hs.pcAligned
  have hinside := hs.pcInside
  omega

/-- Settles O34: a machine that does not run stays, one at the end of its stream ends, any other has a word to execute. -/
theorem stepAlwaysAnswersANextState : Obligations.StepAlwaysAnswersANextState := by
  intro s hs
  by_cases hr : s.runState = .running
  · by_cases hend : s.pc = s.prog.length
    · exact ⟨_, step_of_end hr hend, fun _ => .inl ⟨hend, rfl, rfl⟩⟩
    · have hle := hs.pc_add_six_le hend
      obtain ⟨w, -, hstep⟩ := stepRunsTheDecodedWord s hr hle
      obtain ⟨t, hexec, heff⟩ := exec_effect (decode w) s
      refine ⟨t, hstep.trans hexec, fun _ => .inr ⟨by omega, heff.pc_eq, ?_⟩⟩
      simpa using heff.runState_of_running hr
  · exact ⟨s, step_of_not_running hr, fun h => absurd h hr⟩

end Sys2Proof.Machine
end

section
/-! Any number of steps: a machine that does not run stays, and a run has halted after one step per word and one for the normal
end (R138, R139, R141, R230). -/

namespace Sys2Proof.Machine

/-- A step that answers a next state is the first of the steps from there on. -/
theorem stepN_succ_of_step {s t : State} (h : step s = .next t) (n : Nat) :
    stepN (n + 1) s = stepN n t := by
  rw [stepN, h]

/-- Settles O16, by induction on the number of steps. -/
theorem haltedMachineStaysHalted : Obligations.HaltedMachineStaysHalted := by
  intro n s hs
  induction n with
  | zero => rfl
  | succ n ih => rw [stepN_succ_of_step (step_of_not_running hs), ih]

/-- No step changes the program (R29). -/
theorem prog_eq_of_step {s t : State} (h : step s = .next t) : t.prog = s.prog := by
  rcases step_cases h with ⟨-, rfl⟩ | ⟨-, -, rfl⟩ | ⟨-, -, w, -, hexec⟩
  · rfl
  · rfl
  · exact (effect_of_exec hexec).sameInputs.1

/-- No step leads back to `Ready` (R130). -/
theorem runState_ne_ready_of_step {s t : State} (h : step s = .next t) (hs : s.runState ≠ .ready) :
    t.runState ≠ .ready := by
  rcases step_cases h with ⟨-, rfl⟩ | ⟨-, -, rfl⟩ | ⟨hr, -, w, -, hexec⟩
  · exact hs
  · nofun
  · rcases (effect_of_exec hexec).runState_of_running hr with ht | ht <;> rw [ht] <;> nofun

/-- A started machine has halted, with the invariant, after more steps than there are words left (R230). -/
theorem State.Inv.exists_stepN_halted {n : Nat} {s : State} (hs : s.Inv) (hstarted : s.runState ≠ .ready)
    (hsteps : s.runState = .running → s.prog.length < s.pc + 6 * n) :
    ∃ t, stepN n s = .next t ∧ t.Inv ∧ t.runState ≠ .ready ∧ t.runState ≠ .running := by
  induction n generalizing s with
  | zero => exact ⟨s, rfl, hs, hstarted, fun hr => absurd hs.pcInside (Nat.not_le.2 (hsteps hr))⟩
  | succ n ih =>
    obtain ⟨t, hstep, hrunning⟩ := stepAlwaysAnswersANextState s hs
    rw [stepN_succ_of_step hstep]
    refine ih (stepKeepsInv s t hs hstep) (runState_ne_ready_of_step hstep hstarted) fun ht => ?_
    by_cases hr : s.runState = .running
    · rcases hrunning hr with ⟨-, hnormal, -⟩ | ⟨-, hpc, -⟩
      · cases ht.symm.trans hnormal
      · have hleft := hsteps hr
        rw [hpc, prog_eq_of_step hstep]
        omega
    · rw [step_of_not_running hr] at hstep
      cases hstep
      exact absurd ht hr

/-- A halted machine has no Execution Result exactly when a division by zero was reported (R139, R175, R192). -/
theorem State.Inv.result_eq_none_iff {s : State} (hs : s.Inv) (hstarted : s.runState ≠ .ready)
    (hr : s.runState ≠ .running) : s.result = none ↔ s.fatalReported := by
  rw [← Option.not_isSome_iff_eq_none, hs.resultIffNormal, hs.haltedIffFatal]
  cases hst : s.runState with
  | ready => exact absurd hst hstarted
  | running => exact absurd hst hr
  | haltedNormal | haltedFault => simp

/-- Settles O37: the started machine has halted when the steps of the run are over, and the invariant says what it delivers. -/
theorem runDeliversSnapshotUnlessFatal : Obligations.RunDeliversSnapshotUnlessFatal := by
  refine ⟨fun r hwords => ?_, fun r hwords => ?_⟩
  · have hstart := State.start_of_ready (s := State.reset) rfl hwords
    have hinv := startKeepsInv _ _ r State.inv_reset hstart
    obtain ⟨t, hrun, ht, hstarted, hhalted⟩ :=
      hinv.exists_stepN_halted (n := r.prog.length / Config.wordBytes + 1) nofun fun _ => by
        simp only [State.reset, Config.wordBytes]
        omega
    refine ⟨⟨t.reports, t.result⟩, ?_, ht.result_eq_none_iff hstarted hhalted⟩
    simp only [runProgram, hstart, hrun]
  · simp only [runProgram, State.start_of_not_wholeWords (s := State.reset) rfl hwords]

end Sys2Proof.Machine
end

section
/-! LoadConst and ReadMem: the word of operands that fit, the register written, and the words skipped (R150, R151). -/

namespace Sys2Proof

/-- On operands that fit, the encoder's masks cut nothing off (R92, R94). -/
theorem encode_of_wf {i : Instr} (h : i.wf = true) :
    encode i = (encodeUnguardedNat i).map (BitVec.ofNat 48) := by
  rw [encodeUnguardedNat_of_wf h, encode]

end Sys2Proof

namespace Sys2Proof.Machine

/-! ### What a skipped word and a register write leave alone -/

/-- A fault that is not fatal skips the word (R190, R191). -/
theorem State.skipped_takeFault (s : State) {c : Cause} (h : c.fatal = false) :
    Skipped c s (s.takeFault c) := by
  have hrun : (s.takeFault c).runState = s.runState := by
    rw [State.takeFault_runState, h, if_neg Bool.false_ne_true]
  exact ⟨rfl, fun _ => rfl, fun _ => rfl, rfl, hrun, rfl, rfl, rfl, rfl⟩

/-- A word that writes a register leaves every other register and every cell alone, reports nothing and advances `pc` (R136). -/
theorem State.frame_writeReg_advance (s : State) (r : Nat) (v : CellVal) :
    SameRegsBut r s (s.writeReg r v).advance ∧ SameMem s (s.writeReg r v).advance ∧
      Quiet s (s.writeReg r v).advance :=
  ⟨fun _ hq => s.readReg_writeReg_other v hq, fun _ => rfl, rfl, rfl, rfl, rfl, rfl, rfl, rfl⟩

/-! ### The branches of the two words -/

/-- LoadConst with its register in range loads the constant into it (R150). -/
theorem exec_loadConst_of_valid {b : Nat} (hb : b < 32) (c : Nat) (s : State) :
    exec (.loadConst b c) s = .next (s.writeReg b (constCell c)).advance :=
  if_neg (Nat.not_le.2 hb)

/-- LoadConst with its register out of range takes a fault (R51, R150). -/
theorem exec_loadConst_of_invalidReg {b : Nat} (hb : 32 ≤ b) (c : Nat) (s : State) :
    exec (.loadConst b c) s = .next (s.takeFault .invalidRegisterIndex) :=
  if_pos hb

/-- ReadMem with its register out of range takes a fault, whatever its address (R51, R151, R193). -/
theorem exec_readMem_of_invalidReg {b : Nat} (hb : 32 ≤ b) (c : Nat) (s : State) :
    exec (.readMem b c) s = .next (s.takeFault .invalidRegisterIndex) :=
  if_pos hb

/-- ReadMem with its register in range and its address out of range takes a fault (R52, R151). -/
theorem exec_readMem_of_invalidAddr {b c : Nat} (hb : b < 32) (hc : 64 ≤ c) (s : State) :
    exec (.readMem b c) s = .next (s.takeFault .invalidMemoryAddress) :=
  (if_neg (Nat.not_le.2 hb)).trans (if_pos hc)

/-- Settles O17: the decoder and the encoder on opcode 6, then the two branches of LoadConst. -/
theorem loadConstWritesTheConstant : Obligations.LoadConstWritesTheConstant := by
  obtain ⟨hdecode, -⟩ := decodeReadsOpcodeAndMaskedFields
  refine ⟨hdecode, fun b c hb hc => encode_of_wf ((Instr.wf_loadConst b c).2 ⟨hb, hc⟩),
    fun s b c hb hc => ?_, fun s b c hb => ?_⟩
  · have hval : ((s.writeReg b (constCell c)).advance.readReg b).toNat = c := by
      rw [State.advance_readReg, State.readReg_writeReg_same s _ hb, constCell_toNat hc]
    exact ⟨_, exec_loadConst_of_valid hb c s, hval, s.frame_writeReg_advance b _⟩
  · exact ⟨_, exec_loadConst_of_invalidReg hb c s, s.skipped_takeFault rfl⟩

/-- Settles O18: the decoder and the encoder on opcode 10, then the three branches of ReadMem. -/
theorem readMemCopiesTheCell : Obligations.ReadMemCopiesTheCell := by
  obtain ⟨-, hdecode, -⟩ := decodeReadsOpcodeAndMaskedFields
  refine ⟨hdecode, fun b c hb hc => encode_of_wf ((Instr.wf_readMem b c).2 ⟨hb, hc⟩),
    fun s b c hb hc => ?_, fun s b c hb hc => ?_, fun s b c hb => ?_⟩
  · exact ⟨_, exec_readMem_of_valid hb hc s, State.readReg_writeReg_same s _ hb,
      s.frame_writeReg_advance b _⟩
  · exact ⟨_, exec_readMem_of_invalidAddr hb hc s, s.skipped_takeFault rfl⟩
  · exact ⟨_, exec_readMem_of_invalidReg hb c s, s.skipped_takeFault rfl⟩

end Sys2Proof.Machine
end

section
/-! WriteMem and ModMem: the word of operands that fit, the cell written, and the words skipped (R160, R161, R162). -/

namespace Sys2Proof.Machine

/-- A word that writes a cell stores the value there, leaves every other cell and every register alone, reports nothing and
advances `pc` (R66, R136). -/
theorem State.frame_writeMem_advance {s : State} (hs : s.mem.wf = true) (a : Nat) (v : CellVal) :
    (s.writeMem a v).advance.readMem a = v ∧ SameMemBut a s (s.writeMem a v).advance ∧
      SameRegs s (s.writeMem a v).advance ∧ Quiet s (s.writeMem a v).advance :=
  ⟨State.readMem_writeMem_same hs a v, fun _ hx => s.readMem_writeMem_other v hx, fun _ => rfl,
    s.writeMem_quiet a v⟩

/-! ### The branches of the two words -/

/-- WriteMem with its address out of range takes a fault, whatever its register (R52, R160, R193). -/
theorem exec_writeMem_of_invalidAddr {b c : Nat} (ha : 64 ≤ c + b) (d : Nat) (s : State) :
    exec (.writeMem b c d) s = .next (s.takeFault .invalidMemoryAddress) :=
  if_pos ha

/-- WriteMem with its address in range and its register out of range takes a fault (R51, R160). -/
theorem exec_writeMem_of_invalidReg {b c d : Nat} (ha : c + b < 64) (hd : 32 ≤ d) (s : State) :
    exec (.writeMem b c d) s = .next (s.takeFault .invalidRegisterIndex) :=
  (if_neg (Nat.not_le.2 ha)).trans (if_pos hd)

/-- ModMem with its target out of range takes a fault, whatever its registers (R52, R161, R193). -/
theorem exec_modMem_of_invalidAddr {b c : Nat} (ha : 64 ≤ c + b) (d e : Nat) (s : State) :
    exec (.modMem b c d e) s = .next (s.takeFault .invalidMemoryAddress) :=
  if_pos ha

/-- ModMem with its target in range and a register index out of range takes a fault, whatever the divisor (R51, R161,
R193). -/
theorem exec_modMem_of_invalidReg {b c d e : Nat} (ha : c + b < 64) (hde : 32 ≤ d ∨ 32 ≤ e)
    (s : State) : exec (.modMem b c d e) s = .next (s.takeFault .invalidRegisterIndex) := by
  refine (if_neg (Nat.not_le.2 ha)).trans ?_
  by_cases hd : 32 ≤ d
  · exact if_pos hd
  · exact (if_neg hd).trans (if_pos (hde.resolve_left hd))

section
variable {s : State} {b c d e : Nat} (ha : c + b < 64) (hd : d < 32) (he : e < 32)
  (hz : s.readReg e ≠ 0)
include ha hd he hz

/-- ModMem past its index checks and its zero test is decided by the dividend's address alone (R161, R193). -/
theorem exec_modMem_of_divisor_ne_zero :
    exec (.modMem b c d e) s =
      if 64 ≤ (s.readReg d).toNat then .next (s.takeFault .invalidMemoryAddress)
      else .next (s.writeMem (c + b)
        (remainder (s.readMem (s.readReg d).toNat) (s.readReg e))).advance :=
  calc exec (.modMem b c d e) s
    _ = _ := if_neg (Nat.not_le.2 ha)
    _ = _ := if_neg (Nat.not_le.2 hd)
    _ = _ := if_neg (Nat.not_le.2 he)
    _ = _ := if_neg fun h => hz ((divisorIsZero_iff _).1 h)

/-- ModMem with a dividend address out of range takes a fault (decision D4). -/
theorem exec_modMem_of_invalidDividend (hx : 64 ≤ (s.readReg d).toNat) :
    exec (.modMem b c d e) s = .next (s.takeFault .invalidMemoryAddress) :=
  (exec_modMem_of_divisor_ne_zero ha hd he hz).trans (if_pos hx)

/-- ModMem with everything in range stores the remainder in its target (R161). -/
theorem exec_modMem_of_valid (hx : (s.readReg d).toNat < 64) :
    exec (.modMem b c d e) s = .next (s.writeMem (c + b)
      (remainder (s.readMem (s.readReg d).toNat) (s.readReg e))).advance :=
  (exec_modMem_of_divisor_ne_zero ha hd he hz).trans (if_neg (Nat.not_le.2 hx))

end

/-- The remainder by a divisor that is not 0 is below the divisor (R162). -/
theorem remainder_toNat_lt (a : CellVal) {d : CellVal} (hd : d ≠ 0) :
    (remainder a d).toNat < d.toNat := by
  rw [remainder_toNat]
  exact Nat.mod_lt _ (Nat.pos_of_ne_zero fun h => hd (BitVec.eq_of_toNat_eq h))

/-- The remainder is at most the dividend (R162). -/
theorem remainder_toNat_le (a d : CellVal) : (remainder a d).toNat ≤ a.toNat := by
  rw [remainder_toNat]
  exact Nat.mod_le _ _

/-- Settles O19: the decoder and the encoder on opcode 12, then the three branches of WriteMem. -/
theorem writeMemStoresAtTheFieldSum : Obligations.WriteMemStoresAtTheFieldSum := by
  obtain ⟨-, -, hdecode, -⟩ := decodeReadsOpcodeAndMaskedFields
  refine ⟨hdecode, fun b c d hb hc hd => encode_of_wf ((Instr.wf_writeMem b c d).2 ⟨hb, hc, hd⟩),
    fun s b c d hwf ha hd => ?_, fun s b c d ha => ?_, fun s b c d ha hd => ?_⟩
  · exact ⟨_, exec_writeMem_of_valid ha hd s, State.frame_writeMem_advance hwf _ _⟩
  · exact ⟨_, exec_writeMem_of_invalidAddr ha d s, s.takeFault_skipped nofun⟩
  · exact ⟨_, exec_writeMem_of_invalidReg ha hd s, s.takeFault_skipped nofun⟩

/-- Settles O20: the cell written holds the remainder, whose value and bounds are those of the natural numbers. -/
theorem modMemStoresTheRemainder : Obligations.ModMemStoresTheRemainder := by
  intro s b c d e hwf ha hd he hz hx
  obtain ⟨hcell, hframe⟩ := State.frame_writeMem_advance hwf (c + b)
    (remainder (s.readMem (s.readReg d).toNat) (s.readReg e))
  refine ⟨_, exec_modMem_of_valid ha hd he hz hx, ?_⟩
  rw [hcell]
  exact ⟨remainder_toNat _ _, remainder_toNat_lt _ hz, remainder_toNat_le _ _, hframe⟩

/-- Settles O22: the three index checks come before the zero test. -/
theorem modMemIndexFaultsAreNotFatal : Obligations.ModMemIndexFaultsAreNotFatal := by
  refine ⟨fun s b c d e ha => ?_, fun s b c d e ha hd => ?_, fun s b c d e ha _ he => ?_⟩
  · exact ⟨_, exec_modMem_of_invalidAddr ha d e s, s.takeFault_skipped nofun⟩
  · exact ⟨_, exec_modMem_of_invalidReg ha (.inl hd) s, s.takeFault_skipped nofun⟩
  · exact ⟨_, exec_modMem_of_invalidReg ha (.inr he) s, s.takeFault_skipped nofun⟩

/-- Settles O23: past the zero test, the dividend's address is checked before anything is written. -/
theorem modMemSkipsOnDividendAddressOutOfRange :
    Obligations.ModMemSkipsOnDividendAddressOutOfRange :=
  fun s _ _ _ _ ha hd he hz hx =>
    ⟨_, exec_modMem_of_invalidDividend ha hd he hz hx, s.takeFault_skipped nofun⟩

end Sys2Proof.Machine
end

section
/-! The twelve words of the opcodes that are no instruction (R99, R170). -/

namespace Sys2Proof.Machine

/-- A word that is none of the four instructions only advances `pc` (R136, R170). -/
theorem exec_of_not_isCore {i : Instr} (h : i.isCore = false) (s : State) :
    exec i s = .next s.advance := by
  cases i with
  | loadConst | readMem | writeMem | modMem => cases h
  | nop0 | nop1 | nop2 | nop3 | nop4 | nop5 | nop7 | nop8 | nop9 | nop11 | nop13 | nop15 => rfl

/-- Settles O24: neither the twelve constructors nor the word of another opcode (O1) is one of the four instructions. -/
theorem unrecognizedOpcodesDoNothing : Obligations.UnrecognizedOpcodesDoNothing := by
  have hinstr : ∀ i ∈ [Instr.nop0, .nop1, .nop2, .nop3, .nop4, .nop5, .nop7, .nop8, .nop9, .nop11,
      .nop13, .nop15], i.isCore = false := by decide
  have hopcode : ∀ n ∈ [0, 1, 2, 3, 4, 5, 7, 8, 9, 11, 13, 15], n ∉ [6, 10, 12, 14] := by decide
  obtain ⟨-, -, -, -, hdecode, -⟩ := decodeReadsOpcodeAndMaskedFields
  refine ⟨fun i hi s => exec_of_not_isCore (hinstr i hi) s, fun w s hw => ?_⟩
  obtain ⟨hcore, -⟩ := hdecode w (hopcode _ hw)
  exact exec_of_not_isCore hcore s

end Sys2Proof.Machine
end

section
/-! The snapshot's pairs and reports, each list in closed form: the addresses of the range below 64, and those from 64 on (R177,
R178, R179). -/

namespace Sys2Proof.Machine

/-- The pair the snapshot holds for an address in bounds (R177). -/
def snapshotPair (m : Memory) (a : Nat) : Nat × CellVal := (a, m.read a)

/-- The report the snapshot makes of an address out of bounds (R177). -/
def addressReport (a : Nat) : Report := ⟨.invalidMemoryAddress, .snapshotAddress a⟩

/-- The loop over `n` addresses from `a` on splits them at 64: pairs below, reports from there on. -/
theorem snapshotLoop_eq (m : Memory) (a n : Nat) :
    snapshotLoop m a n =
      ((List.range' a (min (a + n) 64 - a)).map (snapshotPair m),
        (List.range' (max a 64) (a + n - max a 64)).map addressReport) := by
  induction n generalizing a with
  | zero => simp [snapshotLoop]
  | succ n ih =>
    have hend : a + (n + 1) = a + 1 + n := by omega
    rw [snapshotLoop, ih, hend]
    by_cases ha : InvalidAddr a
    · have hle : 64 ≤ a := ha
      have hpairs : min (a + 1 + n) 64 - a = 0 := by omega
      have hpairs' : min (a + 1 + n) 64 - (a + 1) = 0 := by omega
      have hreports : a + 1 + n - a = a + 1 + n - (a + 1) + 1 := by omega
      rw [if_pos ha, hpairs, hpairs', max_eq_left hle, max_eq_left (by omega), hreports,
        List.range'_succ]
      rfl
    · have hlt : a < 64 := Nat.not_le.1 ha
      have hpairs : min (a + 1 + n) 64 - a = min (a + 1 + n) 64 - (a + 1) + 1 := by omega
      rw [if_neg ha, hpairs, List.range'_succ, max_eq_right (by omega), max_eq_right (by omega)]
      rfl

/-- The pairs are those of the addresses from `first` to `last` or 63 (R177). -/
theorem snapshot_pairs (m : Memory) (first last : Nat) :
    (snapshot m first last).1 =
      (List.range' first (min (last + 1) 64 - first)).map (snapshotPair m) := by
  have hlen : min (first + (last + 1 - first)) 64 - first = min (last + 1) 64 - first := by omega
  rw [snapshot, snapshotLoop_eq, hlen]

/-- The reports are those of the addresses from `first` or 64 to `last` (R177, decision D14). -/
theorem snapshot_reports (m : Memory) (first last : Nat) :
    (snapshot m first last).2 =
      (List.range' (max first 64) (last + 1 - max first 64)).map addressReport := by
  have hlen : first + (last + 1 - first) - max first 64 = last + 1 - max first 64 := by omega
  rw [snapshot, snapshotLoop_eq, hlen]

/-! ### What the snapshot holds (R177) -/

theorem mem_snapshot_pairs {m : Memory} {first last a : Nat} {v : CellVal} :
    (a, v) ∈ (snapshot m first last).1 ↔ first ≤ a ∧ a ≤ last ∧ a < 64 ∧ v = m.read a := by
  have hrange : a ∈ List.range' first (min (last + 1) 64 - first) ↔
      first ≤ a ∧ a ≤ last ∧ a < 64 := by
    rw [List.mem_range'_1]
    omega
  rw [snapshot_pairs, List.mem_map]
  constructor
  · rintro ⟨x, hx, hpair⟩
    cases hpair
    obtain ⟨hfirst, hlast, hbound⟩ := hrange.1 hx
    exact ⟨hfirst, hlast, hbound, rfl⟩
  · rintro ⟨hfirst, hlast, hbound, rfl⟩
    exact ⟨a, hrange.2 ⟨hfirst, hlast, hbound⟩, rfl⟩

theorem mem_snapshot_reports {m : Memory} {first last : Nat} {r : Report} :
    r ∈ (snapshot m first last).2 ↔
      ∃ a, r = ⟨.invalidMemoryAddress, .snapshotAddress a⟩ ∧ first ≤ a ∧ a ≤ last ∧ 64 ≤ a := by
  have hrange (a : Nat) : a ∈ List.range' (max first 64) (last + 1 - max first 64) ↔
      first ≤ a ∧ a ≤ last ∧ 64 ≤ a := by
    rw [List.mem_range'_1]
    omega
  rw [snapshot_reports, List.mem_map]
  exact exists_congr fun a => by rw [hrange, and_comm, eq_comm, addressReport]

/-- Settles O38: both lists go through consecutive addresses. -/
theorem snapshotHoldsTheRangeInBounds : Obligations.SnapshotHoldsTheRangeInBounds := by
  refine fun m first last => ⟨fun _ _ => mem_snapshot_pairs, ?_, fun _ => mem_snapshot_reports, ?_⟩
  · rw [snapshot_pairs]
    exact (List.pairwise_lt_range' ..).map _ fun _ _ hlt => hlt
  · rw [snapshot_reports]
    exact (List.pairwise_lt_range' ..).map _ fun _ _ hlt => hlt

/-! ### How much it holds (R178, R179) -/

theorem length_snapshot_pairs (m : Memory) (first last : Nat) :
    (snapshot m first last).1.length = min (last + 1) 64 - first := by
  rw [snapshot_pairs, List.length_map, List.length_range']

theorem length_snapshot_reports (m : Memory) (first last : Nat) :
    (snapshot m first last).2.length = last + 1 - max first 64 := by
  rw [snapshot_reports, List.length_map, List.length_range']

/-- Settles O39, by the lengths of the two lists: a list said to be empty has length 0. -/
theorem snapshotCountsPairsAndReports : Obligations.SnapshotCountsPairsAndReports := by
  intro m first last
  have hpairs := length_snapshot_pairs m first last
  have hreports := length_snapshot_reports m first last
  refine ⟨hpairs, by omega, fun hempty => Prod.ext ?_ ?_, fun hhigh => ?_⟩
  all_goals exact List.length_eq_zero_iff.1 (by omega)

end Sys2Proof.Machine
end

section
/-! When the snapshot is made: at the normal end, and never after the fatal fault (R175, R180). -/

namespace Sys2Proof.Machine

/-- A running machine reaches `HaltedNormal` by the normal end alone (R133, R175). -/
theorem eq_finish_of_step {s t : State} (hr : s.runState = .running) (hstep : step s = .next t)
    (ht : t.runState = .haltedNormal) : t = s.finish := by
  obtain ⟨-, honly, -⟩ := exhaustedStreamEndsTheRunNormally
  obtain ⟨-, hend⟩ := honly s t hstep (by rw [hr]; nofun) ht
  rw [step_of_end hr hend] at hstep
  cases hstep
  rfl

/-- Settles O40: of the three things a step can do, only the normal end touches the result. -/
theorem snapshotIsMadeExactlyAtTheNormalEnd : Obligations.SnapshotIsMadeExactlyAtTheNormalEnd := by
  refine ⟨fun s t hr hstep ht => ?_, fun s t hstep hne => ?_, fun s t hr hstep => ?_⟩
  · obtain rfl := eq_finish_of_step hr hstep ht
    exact ⟨rfl, rfl, fun _ => rfl, fun _ => rfl, rfl, rfl⟩
  · rcases step_cases hstep with ⟨-, rfl⟩ | ⟨hr, -, rfl⟩ | ⟨-, -, w, -, hexec⟩
    · exact absurd rfl hne
    · exact ⟨hr, rfl⟩
    · obtain ⟨-, -, -, hresult⟩ := (effect_of_exec hexec).sameInputs
      exact absurd hresult hne
  · rw [step_of_not_running hr] at hstep
    cases hstep
    rfl

/-- A word that halts a running machine took the fatal fault (R192). -/
theorem Effect.eq_takeFault_of_halted {s t : State} (h : Effect s t) (hr : s.runState = .running)
    (ht : t.runState = .haltedFault) : t = s.takeFault .divisionByZero := by
  cases h with
  | fault c =>
    cases c with
    | divisionByZero => rfl
    | invalidRegisterIndex | invalidMemoryAddress => cases hr.symm.trans ht
  | idle | reg | cell => cases hr.symm.trans ht

/-- A running machine that a step halts with a fault took the fatal fault in the word at `pc` (R192). -/
theorem eq_takeFault_of_step {s t : State} (hr : s.runState = .running) (hstep : step s = .next t)
    (ht : t.runState = .haltedFault) : t = s.takeFault .divisionByZero := by
  rcases step_cases hstep with ⟨hnot, -⟩ | ⟨-, -, rfl⟩ | ⟨-, -, w, -, hexec⟩
  · exact absurd hr hnot
  · cases ht
  · exact (effect_of_exec hexec).eq_takeFault_of_halted hr ht

/-- A machine halted by the fatal fault has no result (R180). -/
theorem State.Inv.result_of_haltedFault {s : State} (hs : s.Inv) (hh : s.runState = .haltedFault) :
    s.result = none := by
  rw [← Option.not_isSome_iff_eq_none, hs.resultIffNormal, hh]
  nofun

/-- A step that does not end the run normally does not look at the bounds (R30, R180). -/
theorem step_of_other_bounds {s t : State} (hstep : step s = .next t) (ht : t.runState ≠ .haltedNormal)
    (first' last' : Nat) :
    step { s with first := first', last := last' } =
      .next { t with first := first', last := last' } := by
  rcases step_cases hstep with ⟨hr, rfl⟩ | ⟨-, -, rfl⟩ | ⟨hr, -, w, hw, hexec⟩
  · exact step_of_not_running hr
  · exact absurd rfl ht
  · rw [prog_eq_of_step hstep, step_of_fetchWord (s := { s with first := first', last := last' }) hr hw]
    exact executionNeverTouchesTheRunInputs _ s t s.prog first' last' hexec

/-- Settles O41: the state reached meets the invariant and does not run; its only new report is the fatal one. -/
theorem fatalFaultSuppressesTheSnapshot : Obligations.FatalFaultSuppressesTheSnapshot := by
  intro s t hs hstep ht
  have hresult := (stepKeepsInv s t hs hstep).result_of_haltedFault ht
  refine ⟨hresult, fun hr => ?_, fun n => ?_, step_of_other_bounds hstep (by rw [ht]; nofun)⟩
  · rw [eq_takeFault_of_step hr hstep ht, State.takeFault_reports]
  · exact haltedMachineStaysHalted n t (by rw [ht]; nofun)

end Sys2Proof.Machine
end

section
/-! The order of the reports: a word adds the report of its own offset, which is past every offset reported before it, and the
normal end adds the snapshot's, which follow the reports of words (R178, R190, R199). -/

namespace Sys2Proof.Machine

@[simp] theorem Report.word_before_word (c c' : Cause) (p p' : Nat) :
    Report.before ⟨c, .word p⟩ ⟨c', .word p'⟩ ↔ p < p' := Iff.rfl

@[simp] theorem Report.word_before_snapshotAddress (c c' : Cause) (p a : Nat) :
    Report.before ⟨c, .word p⟩ ⟨c', .snapshotAddress a⟩ := trivial

@[simp] theorem Report.snapshotAddress_before_snapshotAddress (c c' : Cause) (a a' : Nat) :
    Report.before ⟨c, .snapshotAddress a⟩ ⟨c', .snapshotAddress a'⟩ ↔ a < a' := Iff.rfl

/-- Before a normal end, reports in order are those of executed words alone. -/
theorem State.reportsInOrder_iff_of_ne_haltedNormal {s : State} (h : s.runState ≠ .haltedNormal) :
    s.reportsInOrder ↔ s.reports.Pairwise Report.before ∧
      ∀ r ∈ s.reports, ∃ c p, r = ⟨c, .word p⟩ ∧ p % 6 = 0 ∧ p < s.pc := by
  refine and_congr_right fun _ => forall₂_congr fun r _ => ?_
  obtain ⟨c, origin⟩ := r
  cases origin with
  | word p => simp
  | snapshotAddress a => simp [h]

/-- Every word a running machine executes keeps the reports in order: its offset is past those reported. -/
theorem Effect.reportsInOrder {s t : State} (h : Effect s t) (hs : s.reportsInOrder)
    (hr : s.runState = .running) (haligned : s.pc % 6 = 0) : t.reportsInOrder := by
  have ht : t.runState ≠ .haltedNormal := by
    rcases h.runState_of_running hr with ht | ht <;> rw [ht] <;> nofun
  rw [State.reportsInOrder_iff_of_ne_haltedNormal (by rw [hr]; nofun)] at hs
  rw [State.reportsInOrder_iff_of_ne_haltedNormal ht, h.pc_eq]
  obtain ⟨hpair, hwords⟩ := hs
  have hkept : ∀ r ∈ s.reports, ∃ c p, r = ⟨c, .word p⟩ ∧ p % 6 = 0 ∧ p < s.pc + 6 := by
    intro r hmem
    obtain ⟨c, p, hword, hp, hlt⟩ := hwords r hmem
    exact ⟨c, p, hword, hp, by omega⟩
  cases h with
  | idle | reg | cell => exact ⟨hpair, hkept⟩
  | fault c =>
    rw [State.takeFault_reports, List.pairwise_append, List.forall_mem_append,
      List.forall_mem_singleton]
    refine ⟨⟨hpair, List.pairwise_singleton .., fun r hmem q hq => ?_⟩, hkept,
      c, s.pc, rfl, haligned, by omega⟩
    obtain rfl := List.mem_singleton.1 hq
    obtain ⟨c', p, rfl, -, hlt⟩ := hwords r hmem
    exact (Report.word_before_word ..).2 hlt

/-- The normal end of a running machine keeps the reports in order: the snapshot's follow those of the words (R178). -/
theorem State.reportsInOrder.finish {s : State} (hs : s.reportsInOrder) (hr : s.runState = .running) :
    s.finish.reportsInOrder := by
  rw [State.reportsInOrder_iff_of_ne_haltedNormal (by rw [hr]; nofun)] at hs
  obtain ⟨hpair, hwords⟩ := hs
  rw [State.reportsInOrder, State.finish_reports, List.pairwise_append, List.forall_mem_append]
  refine ⟨⟨hpair, ?_, fun r hmem q hq => ?_⟩, fun r hmem => ?_, fun q hq => ?_⟩
  · rw [snapshot_reports]
    exact (List.pairwise_lt_range' ..).map _ fun _ _ =>
      (Report.snapshotAddress_before_snapshotAddress ..).2
  · obtain ⟨c, p, rfl, -⟩ := hwords r hmem
    obtain ⟨a, rfl, -⟩ := mem_snapshot_reports.1 hq
    exact Report.word_before_snapshotAddress ..
  · obtain ⟨c, p, rfl, hp⟩ := hwords r hmem
    exact hp
  · obtain ⟨a, rfl, hfirst, hlast, hbound⟩ := mem_snapshot_reports.1 hq
    exact ⟨rfl, hbound, hfirst, hlast, rfl⟩

/-- Settles O35, by the three things a step can do. -/
theorem stepKeepsReportsInProgramOrder : Obligations.StepKeepsReportsInProgramOrder := by
  intro s t hinv hs hstep
  rcases step_cases hstep with ⟨-, rfl⟩ | ⟨hr, -, rfl⟩ | ⟨hr, -, w, -, hexec⟩
  · exact hs
  · exact hs.finish hr
  · exact (effect_of_exec hexec).reportsInOrder hs hr hinv.pcAligned

end Sys2Proof.Machine
end

section
/-! Which word can raise which fault (R186, R187, R188, R193), and what follows from it: a word that reports does nothing else,
only a zero divisor is fatal, and no decoded word names a register out of range (R191, R192, R194, R196). -/

namespace Sys2Proof.Machine

/-- What must hold of a word for a fault of each kind (R186, R187, R188): a register index out of range, an address out of
range, or a ModMem with its indices in range and a divisor of 0. -/
def MayRaise (i : Instr) (s : State) : Cause → Prop
  | .invalidRegisterIndex => ∃ r ∈ i.regsRead ++ i.regsWritten, 32 ≤ r
  | .invalidMemoryAddress => ∃ a ∈ i.cellsRead s ++ i.cellsWritten, 64 ≤ a
  | .divisionByZero =>
    ∃ b c d e, i = .modMem b c d e ∧ c + b < 64 ∧ d < 32 ∧ e < 32 ∧ s.readReg e = 0

/-- A next state of a word either reports nothing and leaves the run state, or is that of a fault the word may raise. -/
theorem quiet_or_mayRaise_of_exec {i : Instr} {s t : State} (h : exec i s = .next t) :
    (t.reports = s.reports ∧ t.runState = s.runState) ∨ ∃ c, MayRaise i s c ∧ t = s.takeFault c := by
  cases i with
  | loadConst b c =>
    rcases execLoadConst_cases b c s with ⟨hb, hu⟩ | ⟨-, hu⟩ <;> cases hu.symm.trans h
    · exact .inr ⟨.invalidRegisterIndex, ⟨b, by simp [Instr.regsWritten], hb⟩, rfl⟩
    · exact .inl ⟨rfl, rfl⟩
  | readMem b c =>
    rcases execReadMem_cases b c s with ⟨hb, hu⟩ | ⟨-, hc, hu⟩ | ⟨-, -, hu⟩ <;> cases hu.symm.trans h
    · exact .inr ⟨.invalidRegisterIndex, ⟨b, by simp [Instr.regsWritten], hb⟩, rfl⟩
    · exact .inr ⟨.invalidMemoryAddress, ⟨c, by simp [Instr.cellsRead], hc⟩, rfl⟩
    · exact .inl ⟨rfl, rfl⟩
  | writeMem b c d =>
    rcases execWriteMem_cases b c d s with ⟨ha, hu⟩ | ⟨-, hd, hu⟩ | ⟨-, -, hu⟩ <;>
      cases hu.symm.trans h
    · exact .inr ⟨.invalidMemoryAddress, ⟨c + b, by simp [Instr.cellsWritten, targetAddr], ha⟩, rfl⟩
    · exact .inr ⟨.invalidRegisterIndex, ⟨d, by simp [Instr.regsRead], hd⟩, rfl⟩
    · exact .inl ⟨rfl, rfl⟩
  | modMem b c d e =>
    rcases execModMem_cases b c d e s with ⟨ha, hu⟩ | ⟨-, hde, hu⟩ | ⟨ha, hd, he, hz, hu⟩ |
      ⟨-, -, -, -, hx, hu⟩ | ⟨-, -, -, -, -, hu⟩ <;> cases hu.symm.trans h
    · exact .inr ⟨.invalidMemoryAddress, ⟨c + b, by simp [Instr.cellsWritten, targetAddr], ha⟩, rfl⟩
    · refine .inr ⟨.invalidRegisterIndex, ?_, rfl⟩
      simpa [MayRaise, Instr.regsRead, Instr.regsWritten, imp_iff_not_or] using hde
    · exact .inr ⟨.divisionByZero, ⟨b, c, d, e, rfl, ha, hd, he, hz⟩, rfl⟩
    · exact .inr ⟨.invalidMemoryAddress, ⟨indirectAddr s d, by simp [Instr.cellsRead], hx⟩, rfl⟩
    · exact .inl ⟨rfl, rfl⟩
  | nop0 | nop1 | nop2 | nop3 | nop4 | nop5 | nop7 | nop8 | nop9 | nop11 | nop13 | nop15 =>
    cases h
    exact .inl ⟨rfl, rfl⟩

/-- A word that takes a fault may raise it. -/
theorem mayRaise_of_exec {i : Instr} {s : State} {c : Cause} (h : exec i s = .next (s.takeFault c)) :
    MayRaise i s c := by
  rcases quiet_or_mayRaise_of_exec h with ⟨hreports, -⟩ | ⟨c', hraise, heq⟩
  · simp at hreports
  · have hreports := congrArg State.reports heq
    obtain rfl : c = c' := by simpa using hreports
    exact hraise

/-- ModMem with its indices in range and a divisor of 0 takes the fatal fault (R161, R188). -/
theorem exec_modMem_of_divisor_eq_zero {b c d e : Nat} {s : State} (ha : c + b < 64) (hd : d < 32)
    (he : e < 32) (hz : s.readReg e = 0) :
    exec (.modMem b c d e) s = .next (s.takeFault .divisionByZero) :=
  calc exec (.modMem b c d e) s
    _ = _ := if_neg (Nat.not_le.2 ha)
    _ = _ := if_neg (Nat.not_le.2 hd)
    _ = _ := if_neg (Nat.not_le.2 he)
    _ = _ := if_pos ((divisorIsZero_iff _).2 hz)

/-- Settles O21: the zero test is the one way to the fatal fault, and the fatal fault the one way to `HaltedFault`. -/
theorem onlyAZeroDivisorHaltsEarly : Obligations.OnlyAZeroDivisorHaltsEarly := by
  refine ⟨fun s b c d e ha hd he hz => ?_, fun i s t hexec hmem => ?_, fun s t hstep hs ht => ?_⟩
  · exact ⟨_, exec_modMem_of_divisor_eq_zero ha hd he hz, s.takeFault_halted, step_of_not_running nofun⟩
  · rcases quiet_or_mayRaise_of_exec hexec with ⟨hreports, -⟩ | ⟨c, hraise, rfl⟩
    · simp [hreports] at hmem
    · obtain rfl : .divisionByZero = c := by simpa using hmem
      exact hraise
  · rcases step_cases hstep with ⟨-, rfl⟩ | ⟨-, -, rfl⟩ | ⟨hr, -, w, hw, hexec⟩
    · exact absurd ht hs
    · cases ht
    · rw [eq_takeFault_of_step hr hstep ht] at hexec
      obtain ⟨b, c, d, e, hdecode, hrange⟩ := mayRaise_of_exec hexec
      exact ⟨w, b, c, d, e, hw, hdecode, hrange⟩

/-- Settles O25: a word that does not report nothing took a fault, which is fatal or skips the word. -/
theorem aFaultingWordHasNoOtherEffect : Obligations.AFaultingWordHasNoOtherEffect := by
  intro i s t hexec
  rcases quiet_or_mayRaise_of_exec hexec with hquiet | ⟨c, -, rfl⟩
  · exact .inl hquiet
  · by_cases hc : c = .divisionByZero
    · subst hc
      exact .inr (.inr s.takeFault_halted)
    · exact .inr (.inl ⟨c, s.takeFault_skipped hc, hc⟩)

/-- Every register an instruction that fits its fields names is in range (R82, R83, R84). -/
theorem lt_of_mem_regs_of_wf {i : Instr} (h : i.wf = true) {r : Nat}
    (hr : r ∈ i.regsRead ++ i.regsWritten) : r < 32 := by
  cases i with
  | loadConst | readMem | writeMem | modMem =>
    simp [Instr.regsRead, Instr.regsWritten] at h hr
    omega
  | nop0 | nop1 | nop2 | nop3 | nop4 | nop5 | nop7 | nop8 | nop9 | nop11 | nop13 | nop15 => cases hr

/-- No decoded word may raise a register fault (R194). -/
theorem not_mayRaise_invalidRegisterIndex_decode (w : Word) (s : State) :
    ¬ MayRaise (decode w) s .invalidRegisterIndex :=
  fun ⟨_, hr, hge⟩ => absurd (lt_of_mem_regs_of_wf (wf_decodeFields ..) hr) (Nat.not_lt.2 hge)

/-- Settles O26: a step reports nothing, or addresses of the snapshot, or a fault the decoded word may raise. -/
theorem noWordRaisesInvalidRegisterIndex : Obligations.NoWordRaisesInvalidRegisterIndex := by
  intro s t hstep r hmem hcause
  rcases step_cases hstep with ⟨-, rfl⟩ | ⟨-, -, rfl⟩ | ⟨-, -, w, -, hexec⟩
  · exact hmem
  · rw [State.finish_reports, List.mem_append] at hmem
    refine hmem.resolve_right fun hsnapshot => ?_
    cases (cause_of_mem_snapshotLoop hsnapshot).symm.trans hcause
  · rcases quiet_or_mayRaise_of_exec hexec with ⟨hreports, -⟩ | ⟨c, hraise, rfl⟩
    · exact hreports ▸ hmem
    · rw [State.takeFault_reports, List.mem_append, List.mem_singleton] at hmem
      refine hmem.resolve_right fun hnew => ?_
      subst hnew
      cases hcause
      exact not_mayRaise_invalidRegisterIndex_decode w s hraise

end Sys2Proof.Machine
end

section
/-! A run as a whole: a running machine executes its words one per step, in order, until the stream is exhausted or a word is
fatal (R133, R134, R192, R230). -/

namespace Sys2Proof.Machine

/-- `k` steps lead from one state to another, and each starts from a running machine and passes one word. -/
inductive RunsWords : Nat → State → State → Prop where
  | none (s : State) : RunsWords 0 s s
  | word {k : Nat} {s t u : State} (hr : s.runState = .running) (hstep : step s = .next t)
      (hpc : t.pc = s.pc + 6) (hrest : RunsWords k t u) : RunsWords (k + 1) s u

section

variable {k : Nat} {s t : State}

/-- The steps over `k` words are the machine's first `k` steps. -/
theorem RunsWords.stepN_eq (h : RunsWords k s t) : stepN k s = .next t := by
  induction h with
  | none s => rfl
  | word _ hstep _ _ ih => rw [stepN_succ_of_step hstep, ih]

/-- `k` words are `6 * k` bytes of the stream (R136). -/
theorem RunsWords.pc_eq (h : RunsWords k s t) : t.pc = s.pc + 6 * k := by
  induction h with
  | none s => rfl
  | word _ _ hpc _ ih => omega

/-- The words executed do not change the program (R29). -/
theorem RunsWords.prog_eq (h : RunsWords k s t) : t.prog = s.prog := by
  induction h with
  | none s => rfl
  | word _ hstep _ _ ih => rw [ih, prog_eq_of_step hstep]

/-- The words executed keep the invariant. -/
theorem RunsWords.inv (h : RunsWords k s t) (hs : s.Inv) : t.Inv := by
  induction h with
  | none s => exact hs
  | word _ hstep _ _ ih => exact ih (stepKeepsInv _ _ hs hstep)

/-- Before each of the `k` words the machine runs and stands at that word. -/
theorem RunsWords.running_before (h : RunsWords k s t) {j : Nat} (hj : j < k) :
    ∃ u, stepN j s = .next u ∧ u.runState = .running ∧ u.pc = s.pc + 6 * j := by
  induction h generalizing j with
  | none s => cases hj
  | @word k s t _ hr hstep hpc _ ih =>
    cases j with
    | zero => exact ⟨s, rfl, hr, rfl⟩
    | succ j =>
      obtain ⟨u, hu, hrun, hat⟩ := ih (Nat.lt_of_succ_lt_succ hj)
      exact ⟨u, (stepN_succ_of_step hstep j).trans hu, hrun, by omega⟩

/-- The words of a run are over: the last one, at `p`, was fatal (R192), or the stream is exhausted (R133). -/
def State.WordsOver (t : State) : Prop :=
  (t.runState = .haltedFault ∧
    ∃ p, t.pc = p + 6 ∧ t.reports.getLast? = some ⟨.divisionByZero, .word p⟩) ∨
  (t.runState = .running ∧ t.pc = t.prog.length)

/-- A machine that a step halts with a fault has executed its last word. -/
theorem State.wordsOver_of_step (hr : s.runState = .running) (hstep : step s = .next t)
    (ht : t.runState = .haltedFault) : t.WordsOver := by
  obtain rfl := eq_takeFault_of_step hr hstep ht
  exact .inl ⟨rfl, s.pc, rfl, List.getLast?_concat⟩

/-- A running machine executes words until they are over, by induction on the number of words left (R230). -/
theorem State.Inv.exists_runsWords {n : Nat} (hs : s.Inv) (hr : s.runState = .running)
    (hleft : s.prog.length = s.pc + 6 * n) : ∃ k t, RunsWords k s t ∧ t.WordsOver := by
  induction n generalizing s with
  | zero => exact ⟨0, s, .none s, .inr ⟨hr, hleft.symm⟩⟩
  | succ n ih =>
    obtain ⟨t, hstep, hrunning⟩ := stepAlwaysAnswersANextState s hs
    rcases hrunning hr with ⟨hend, -, -⟩ | ⟨-, hpc, hstate⟩
    · omega
    · rcases List.mem_pair.1 hstate with ht | ht
      · have hprog := prog_eq_of_step hstep
        obtain ⟨k, u, hrest, hover⟩ := ih (stepKeepsInv s t hs hstep) ht (by rw [hprog]; omega)
        exact ⟨k + 1, u, .word hr hstep hpc hrest, hover⟩
      · exact ⟨1, t, .word hr hstep hpc (.none t), State.wordsOver_of_step hr hstep ht⟩

end

/-- Settles O36: the words executed until they are over are at most those left, since `pc` stays inside the stream. -/
theorem runExecutesEachWordOnceAndEnds : Obligations.RunExecutesEachWordOnceAndEnds := by
  intro s hs hr
  have hwords := hs.wholeWords
  have haligned := hs.pcAligned
  have hinside := hs.pcInside
  obtain ⟨k, t, hrun, hover⟩ :=
    hs.exists_runsWords (n := (s.prog.length - s.pc) / 6) hr (by omega)
  have hpc := hrun.pc_eq
  have hprog := hrun.prog_eq
  have hle : t.pc ≤ s.prog.length := hprog ▸ (hrun.inv hs).pcInside
  refine ⟨k, t, hrun.stepN_eq, hpc, by omega, fun j hj => hrun.running_before hj, ?_⟩
  rcases hover with ⟨ht, p, hp, hlast⟩ | ⟨ht, hend⟩
  · have hpos : 0 < k := by
      cases hrun with
      | none => cases hr.symm.trans ht
      | word => exact Nat.succ_pos _
    obtain rfl : p = s.pc + 6 * (k - 1) := by omega
    exact .inl ⟨ht, hpos, hlast⟩
  · have hlen : t.pc = s.prog.length := hprog ▸ hend
    exact .inr ⟨ht, by omega, hlen, _, step_of_end ht hend, rfl⟩

end Sys2Proof.Machine
end

section
/-! What reset leaves (R34, R220), and the decoder on the arbitrary words of the test vectors (95_test_vectors.md section
2.2). -/

namespace Sys2Proof.Machine

/-! ### Reset -/

/-- Every Memory cell reads 0 after reset, which leaves no cell listed (R34). -/
theorem State.reset_readMem (a : Nat) : State.reset.readMem a = 0 :=
  Memory.read_nil a

/-- Settles O10: the registers and the cells by what they read after reset, the other fields as reset sets them. -/
theorem resetLeavesZeroedReadyMachine : Obligations.ResetLeavesZeroedReadyMachine :=
  ⟨State.reset_readReg, State.reset_readMem, rfl, rfl, rfl, rfl⟩

/-- Settles O31: the invariant of the reset state, clause by clause in `State.inv_reset`. -/
theorem invHoldsAtReset : Obligations.InvHoldsAtReset :=
  State.inv_reset

/-! ### The arbitrary words -/

/-- Settles O2, by running the decoder on the seven words. -/
theorem arbitraryWordsDecodeAsListed : Obligations.ArbitraryWordsDecodeAsListed := by
  unfold Obligations.ArbitraryWordsDecodeAsListed
  decide

end Sys2Proof.Machine
end
